-- ==== Sys2Proof/Word.lean ====
section
/-!
DEFINITION. The widths of the block's values (spec/00_scope.md R6 and R8).
-/

namespace Sys2Proof

/-- A data byte: every bus access moves exactly one (20 R35). -/
abbrev Byte := BitVec 8

/-- A logical address, `LA_WIDTH` = 16 bits (00 R6). -/
abbrev LAddr := BitVec 16

/-- A physical address, `PA_WIDTH` = 32 bits (00 R6, decision D2). -/
abbrev PAddr := BitVec 32

/-- One bank-table entry, `BANK_WIDTH` = 32 bits unsigned (00 R6, 10 R18). -/
abbrev BankWord := BitVec 32

/-- A nonvolatile slot number, 3 bits: `NSLOTS` = 8 (00 R6). -/
abbrev Slot := BitVec 3

end Sys2Proof
end

