-- ==== Sys2Proof/Config.lean ====
section
/-!
DEFINITION. The block's configuration (spec/00_scope.md R6, spec/10_state.md R13 to R17): the comparator
entries, the parameters a machine leaves to its configuration, and the free value. The configuration is plain
data; State carries it as a constant field (log entry 1), so that a statement about every state is a
statement about every configuration.
-/

namespace Sys2Proof

/-- The mode tag of an entry: exactly five values (10 R16). -/
inductive Mode where
  | native | emulation | patgen | dsr | physical
  deriving DecidableEq, Repr

/-- The six pseudo-resources, which the block serves itself (10 R15). -/
inductive Pseudo where
  | sram | rom0 | rom1 | rom1alt | dram | ints
  deriving DecidableEq, Repr

/-- What an entry reaches: one of the six pseudo-resources, or an external device by its name: the seven kinds
of 10 R15. The device name is present exactly for the kind EXT (10 R14). -/
inductive Kind where
  | pseudo (p : Pseudo)
  | ext (dev : String)
  deriving DecidableEq, Repr

/-- One comparator of the address-comparator array (10 R14). One type serves both levels: the fields have 32
bits, and 00 R7(a) keeps those of a logical entry below 2^16 (log entry 11). -/
structure Entry where
  mask    : PAddr
  pattern : PAddr
  wsel    : PAddr
  mode    : Mode
  stop    : Bool
  kind    : Kind
  deriving DecidableEq, Repr

/-- A configuration record, from which BUILD makes an entry (30 R57). -/
structure Record where
  resourceName   : String
  addressMask    : PAddr
  selectPattern  : PAddr
  writeSelectBit : PAddr
  mode           : Mode
  stopOnMatch    : Bool
  deriving DecidableEq, Repr

/-- The addresses from `lo` to `hi`, both among them. `BANK_CMD_RANGE` and `AUX_SERIAL_RANGE` are finite sets
of addresses (00 R6), held as a list of these (log entry 12). -/
structure AddrRange where
  lo : Nat
  hi : Nat
  deriving DecidableEq, Repr

/-- The levels that decide eligibility: whether the native regime is active (10 R20), `ptgen` and `dsrSelected`. -/
structure FlagLevels where
  native      : Bool
  ptgen       : Bool
  dsrSelected : Bool
  deriving DecidableEq, Repr

/-- The eight combinations of levels. -/
def FlagLevels.all : List FlagLevels :=
  [⟨false, false, false⟩, ⟨false, false, true⟩, ⟨false, true, false⟩, ⟨false, true, true⟩,
    ⟨true, false, false⟩, ⟨true, false, true⟩, ⟨true, true, false⟩, ⟨true, true, true⟩]

/-- One mode's column of `MODE_ENABLED`: the combinations of levels under which its entries are eligible. Every
Boolean function of the levels is one, "never" and "either flag" among them. -/
abbrev ModeGate := List FlagLevels

/-- The parameter `MODE_ENABLED` (00 R6): one gate for each mode that a logical entry can have. A model may
replace the decided table (92 D5), so it is data (log entry 15). -/
structure ModeEnabled where
  native    : ModeGate
  emulation : ModeGate
  patgen    : ModeGate
  dsr       : ModeGate
  deriving DecidableEq, Repr

/-- The decided table of 40 R66. -/
def ModeEnabled.decided : ModeEnabled where
  native    := FlagLevels.all.filter fun f => f.native
  emulation := FlagLevels.all.filter fun f => !f.native
  patgen    := FlagLevels.all.filter fun f => f.ptgen
  dsr       := FlagLevels.all.filter fun f => f.dsrSelected

/-- `DSR_WRITE_MODE`: whether CTL_DSR sets the flag to the data bit or inverts it (43 R100). -/
inductive DsrWriteMode where
  | set | flip
  deriving DecidableEq, Repr

/-- The bus buffer whose first bytes the nonvolatile store can be (`NV_ALIAS`, 10 R24). -/
inductive AliasOf where
  | sram | dram
  deriving DecidableEq, Repr

/-- The configuration: fixed before the first transaction and never changed (10 R13). One field for each
parameter of 00 R6 that is not fixed; the fixed ones are the widths of Word.lean and the numerals 16, 8 and 64
of NPAGES, NSLOTS and SLOT_BYTES. -/
structure Config where
  logical        : List Entry
  physical       : List Entry
  devices        : List String
  pseudoNames    : List (String × Pseudo)
  sramSize       : Nat
  dramSize       : Nat
  romSize        : Nat
  rom            : List Host.Cell
  rom0Off        : PAddr
  rom1Off        : PAddr
  rom1altOff     : PAddr
  nvSize         : Nat
  nvAlias        : Option AliasOf
  bankCmdRange   : List AddrRange
  ctrlAddrWidth  : Nat
  ctrlDataWidth  : Nat
  ctrlDsrAddr    : Nat
  ctrlResetAddr  : Nat
  auxSerialRange : List AddrRange
  cruNativeValue : Bool
  modeEnabled    : ModeEnabled
  dsrWriteMode   : DsrWriteMode
  qualEdge       : Bool
  waitLogical    : Nat
  waitPhysical   : Nat
  deriving DecidableEq, Repr

/-- The byte that the n-th `draw()` gives: a free value (41 R78, R79; 44 R113; 92 D9, D10; log entry 5). It has
no body, so no proof can see what it is, and a statement about it holds for every value. -/
opaque Config.freeByte : Nat → Byte

end Sys2Proof
end

