-- ==== Sys2Proof/Machine/Ports.lean ====
section
/-!
DEFINITION. What crosses the block's ports: the six call formats (spec/30_encoding.md R46), what a device call
does (spec/60_exceptions.md R126, R129) and the output events (spec/00_scope.md R9).
-/

namespace Sys2Proof.Machine

/-- The two lines of `setModeLine` (30 R54). -/
inductive LineName where
  | cru | ptgen
  deriving DecidableEq, Repr

/-- One call on a port: the encoded form of a transaction (30 R46). The block has no instruction words. -/
inductive Call where
  /-- BUS_R: `la[15:0]`. -/
  | busRead (la : LAddr)
  /-- BUS_W: `la[15:0]`, `d[7:0]`. -/
  | busWrite (la : LAddr) (d : Byte)
  /-- CTL: an address and a value, whose widths are parameters (log entry 10). -/
  | ctl (ca : Nat) (v : Nat)
  /-- LINE: which line, and its new level. -/
  | line (which : LineName) (level : Bool)
  /-- TICK: the `edgeAsserted` argument. -/
  | tick (edge : Bool)
  /-- RESET: no field. -/
  | reset
  deriving DecidableEq, Repr

/-- What one device call does: an input of the step (10 R26, 92 D34). -/
inductive DevReply where
  /-- The device answers. For `readByte` this is (value, found); for `writeByte` it says only that the device
  took the byte. -/
  | answer (value : Byte) (found : Bool)
  /-- The device calls the block before it returns (60 R126). -/
  | reenter
  deriving DecidableEq, Repr

/-- An output event (00 R9). A device address is the 16-bit logical address widened with zero bits, or the
32-bit physical address (41 R79, log entry 11). -/
inductive Event where
  | notifyReady (level : Bool)
  | requestSoftReset
  | devRead (dev : String) (a : PAddr)
  | devWrite (dev : String) (a : PAddr) (d : Byte)
  deriving DecidableEq, Repr

/-- The direction of a bus access (40 R64). -/
inductive Dir where
  | read | write
  deriving DecidableEq, Repr

end Sys2Proof.Machine
end

