-- ==== Sys2Proof/Machine/Operands.lean ====
section
/-!
DEFINITION. Fields and operand forms, none of which needs the state: the page and offset of a logical address, the
payload of a bank command, the data bit of a control write, membership of an address set, one comparator's match
and index (spec/30_encoding.md R47 to R53, spec/40_registry_and_comparators.md R64 and R68), relocation
(spec/42_physical_relocation.md R86) and the byte order of a slot (spec/20_memory.md R34).
-/

namespace Sys2Proof.Machine

/-- `la[15:12]`: the page number, which indexes the bank table (30 R47). -/
def pageOf (la : LAddr) : Fin 16 := (la.extractLsb' 12 4).toFin

/-- `la[11:0]`: the offset within the page (30 R47). -/
def offsetOf (la : LAddr) : BitVec 12 := la.extractLsb' 0 12

/-- RELOCATE: `bank[la[15:12]] +_32 zext_32(la[11:0])`, modulo 2^32 (42 R86). -/
def relocate (bank : Vector BankWord 16) (la : LAddr) : PAddr :=
  bank[pageOf la] + (offsetOf la).setWidth 32

/-- Whether an address lies in a set of addresses. -/
def inRanges (rs : List AddrRange) (a : Nat) : Bool :=
  rs.any fun r => decide (r.lo ≤ a ∧ a ≤ r.hi)

/-- Whether a bus write at `la` is a bank command (30 R51, mode-independent). -/
def inBankCmdRange (cfg : Config) (la : LAddr) : Bool := inRanges cfg.bankCmdRange la.toNat

/-- `d[7:4] = 0`: the payload is a load or a store (30 R48, R50). -/
def payloadValid (d : Byte) : Bool := d.extractLsb' 4 4 == 0#4

/-- `d[3:1]`: the slot (30 R49). -/
def payloadSlot (d : Byte) : Slot := d.extractLsb' 1 3

/-- `d[0] = 1`: the direction is load (30 R49). -/
def payloadIsLoad (d : Byte) : Bool := d.getLsbD 0

/-- The payload `0000kkkl` (30 R48). -/
def payloadOf (k : Slot) (isLoad : Bool) : Byte := 0#4 ++ k ++ BitVec.ofBool isLoad

/-- `v[0]`: the data bit of a control write (30 R53). -/
def dataBit (v : Nat) : Bool := v.testBit 0

/-- A logical address at the width of an entry's fields, widened with zero bits (00 R8). -/
def widen (la : LAddr) : PAddr := la.setWidth 32

/-- The value that the masked address must equal: the pattern, with the write-select bits OR-ed in for a write
(40 R64, reading A of 90 C4). -/
def entryTarget (e : Entry) : Dir → PAddr
  | .read  => e.pattern
  | .write => e.pattern ||| e.wsel

/-- MATCH: `(a & e.mask) = target` (40 R64). -/
def entryMatches (e : Entry) (dir : Dir) (a : PAddr) : Bool := (a &&& e.mask) == entryTarget e dir

/-- INDEX: `a & ~mask`, the address bits that take no part in matching (40 R68). A logical address has zero bits
above bit 15, so the complement within 32 bits gives what the complement within 16 bits gives. -/
def entryIndex (e : Entry) (a : PAddr) : PAddr := a &&& ~~~e.mask

/-- The offset in the store of bank-table entry `i` of slot `k`: `64*k + 4*i` (20 R34). -/
def slotOffset (k : Slot) (i : Fin 16) : Nat := 64 * k.toNat + 4 * i.val

/-- Four bytes as one word, the first byte highest: `b0 << 24 | b1 << 16 | b2 << 8 | b3` (20 R34, 42 R94). -/
def bigEndian (b0 b1 b2 b3 : Byte) : BankWord :=
  b0.setWidth 32 <<< 24 ||| b1.setWidth 32 <<< 16 ||| b2.setWidth 32 <<< 8 ||| b3.setWidth 32

/-- Byte `j` of a word in big-endian order: j = 0 is `w[31:24]` and j = 3 is `w[7:0]` (20 R34). -/
def bigEndianByte (w : BankWord) (j : Nat) : Byte := w.extractLsb' (24 - 8 * j) 8

end Sys2Proof.Machine
end

