-- ==== Sys2Proof/Machine/Registry.lean ====
section
/-!
DEFINITION. The Device Registry: RESOLVE and BUILD (spec/40_registry_and_comparators.md R61 to R63), the checks
that a configuration must pass (spec/00_scope.md R7), and the property of the physical ROM windows
(spec/42_physical_relocation.md R91).
-/

namespace Sys2Proof.Machine

/-- The entry of a record, once its resource is known: the other fields are copied unchanged (30 R57). -/
def entryOf (r : Record) (kind : Kind) : Entry where
  mask    := r.addressMask
  pattern := r.selectPattern
  wsel    := r.writeSelectBit
  mode    := r.mode
  stop    := r.stopOnMatch
  kind    := kind

/-- RESOLVE: a pseudo-resource by its name, else a device by its name, else dropped (40 R62). -/
def resolve (pseudoNames : List (String × Pseudo)) (devices : List String) (r : Record) : Option Entry :=
  match pseudoNames.lookup r.resourceName with
  | some p => some (entryOf r (.pseudo p))
  | none => if devices.contains r.resourceName then some (entryOf r (.ext r.resourceName)) else none

/-- BUILD: the logical and the physical collection, each in configuration order (40 R61). -/
def build (pseudoNames : List (String × Pseudo)) (devices : List String) :
    List Record → List Entry × List Entry
  | [] => ([], [])
  | r :: rs =>
    let rest := build pseudoNames devices rs
    match resolve pseudoNames devices r with
    | none => rest
    | some e => if r.mode = .physical then (rest.1, e :: rest.2) else (e :: rest.1, rest.2)

/-- 00 R7(a), one entry: `mask`, `pattern` and `wsel` below 2^16. -/
def entryIsNarrow (e : Entry) : Bool :=
  decide (e.mask.toNat < 2 ^ 16 ∧ e.pattern.toNat < 2 ^ 16 ∧ e.wsel.toNat < 2 ^ 16)

/-- 00 R7(c), one entry: an external device is one of `DEVICES`. -/
def deviceKnown (devices : List String) (e : Entry) : Bool :=
  match e.kind with
  | .pseudo _ => true
  | .ext dev => devices.contains dev

/-- 00 R7(f): `CTRL_DSR_ADDR`, `CTRL_RESET_ADDR` and `AUX_SERIAL_RANGE` are pairwise disjoint. -/
def controlDisjoint (cfg : Config) : Bool :=
  cfg.ctrlDsrAddr != cfg.ctrlResetAddr
    && !inRanges cfg.auxSerialRange cfg.ctrlDsrAddr && !inRanges cfg.auxSerialRange cfg.ctrlResetAddr

/-- The checks (a) to (f) of 00 R7. A configuration that fails one is refused: no transaction runs under it. -/
def configAccepted (cfg : Config) : Bool :=
  cfg.logical.all entryIsNarrow
    && cfg.logical.all (fun e => e.mode != .physical) && cfg.physical.all (fun e => e.mode == .physical)
    && cfg.logical.all (deviceKnown cfg.devices) && cfg.physical.all (deviceKnown cfg.devices)
    && decide (1 ≤ cfg.waitLogical) && decide (1 ≤ cfg.waitPhysical)
    && decide (512 ≤ cfg.nvSize)
    && controlDisjoint cfg

/-- The fixed ROM-image offset of a ROM kind; `none` for the other kinds (00 R6). -/
def romOffset (cfg : Config) (e : Entry) : Option PAddr :=
  match e.kind with
  | .pseudo .rom0 => some cfg.rom0Off
  | .pseudo .rom1 => some cfg.rom1Off
  | .pseudo .rom1alt => some cfg.rom1altOff
  | _ => none

/-- Whether two ROM entries with the offsets `o1` and `o2` reach a common ROM byte. An entry reaches the bytes
`off | i` for every `i` within `~mask`, so both reach a byte exactly when each offset lies within what the other
reaches. -/
def romOverlap (e1 e2 : Entry) (o1 o2 : PAddr) : Bool :=
  (o1 &&& e2.mask &&& ~~~o2) == 0#32 && (o2 &&& e1.mask &&& ~~~o1) == 0#32

/-- No earlier ROM entry of the list overlaps a later one; an entry whose pattern has a bit outside its mask is
never read (40 R64) and reaches nothing. -/
def romWindowsDisjointIn (cfg : Config) : List Entry → Bool
  | [] => true
  | e :: es =>
    (match romOffset cfg e with
     | none => true
     | some o1 => es.all fun e2 =>
        match romOffset cfg e2 with
        | none => true
        | some o2 => (e.pattern &&& ~~~e.mask) != 0#32 || (e2.pattern &&& ~~~e2.mask) != 0#32
            || !romOverlap e e2 o1 o2)
    && romWindowsDisjointIn cfg es

/-- The ROM bytes that the physical ROM entries reach do not overlap (42 R91). A property of a configuration: a
configuration without it is outside the source's description, and the model still runs it (log entry 13). -/
def physicalRomWindowsDisjoint (cfg : Config) : Bool := romWindowsDisjointIn cfg cfg.physical

end Sys2Proof.Machine
end

