-- ==== Sys2Proof/Machine/ConfigT.lean ====
section
/-!
DEFINITION. CFG-T, the one complete configuration that the spec writes out (spec/95_test_vectors.md section 0).
State.reset carries it (log entry 1), because the spec leaves the configuration to each machine.
-/

namespace Sys2Proof.Machine

/-- The PSEUDO_NAMES of CFG-T: the spec gives no names, so each kind is named by its own word (log entry 1). -/
def pseudoNamesT : List (String × Pseudo) :=
  [("SRAM", .sram), ("ROM0", .rom0), ("ROM1", .rom1), ("ROM1ALT", .rom1alt), ("DRAM", .dram), ("INTS", .ints)]

/-- The devices that the entries of CFG-T name. -/
def devicesT : List String := ["dsr", "spy", "vdp", "pgen", "xbus"]

/-- L0 to L8, in priority order. -/
def logicalT : List Entry :=
  [ ⟨0xF000, 0x6000, 0, .native, true, .ext "dsr"⟩,
    ⟨0xF000, 0x7000, 0, .native, false, .ext "spy"⟩,
    ⟨0xF000, 0x7000, 0, .native, true, .pseudo .sram⟩,
    ⟨0xF800, 0x8000, 0, .native, true, .pseudo .sram⟩,
    ⟨0xFC00, 0x8800, 0x0400, .native, true, .ext "vdp"⟩,
    ⟨0xE000, 0x0000, 0, .native, true, .pseudo .rom0⟩,
    ⟨0xE000, 0x0000, 0, .emulation, true, .pseudo .rom1⟩,
    ⟨0xF000, 0x4000, 0, .dsr, true, .pseudo .rom1alt⟩,
    ⟨0xF000, 0x5000, 0, .patgen, true, .ext "pgen"⟩ ]

/-- P0 to P4, in priority order. -/
def physicalT : List Entry :=
  [ ⟨0xFFFF0000, 0x00000000, 0, .physical, true, .pseudo .dram⟩,
    ⟨0xFFFFC000, 0x00FF0000, 0, .physical, true, .pseudo .rom1⟩,
    ⟨0xFFFFE000, 0x00FF8000, 0, .physical, true, .pseudo .rom0⟩,
    ⟨0xFFFFFF00, 0x00FFFF00, 0, .physical, true, .pseudo .ints⟩,
    ⟨0xFFFFF000, 0x00FE0000, 0, .physical, true, .ext "xbus"⟩ ]

/-- CFG-T. The value of `CRU_NATIVE_VALUE` is an argument: the spec's vectors hold for both (92 D6). The ROM
image is empty: its unlisted bytes read as Memory.unlisted (log entry 7). -/
def configT (native : Bool) : Config where
  logical        := logicalT
  physical       := physicalT
  devices        := devicesT
  pseudoNames    := pseudoNamesT
  sramSize       := 0x1000
  dramSize       := 0x10000
  romSize        := 0x8000
  rom            := []
  rom0Off        := 0x0000
  rom1Off        := 0x4000
  rom1altOff     := 0x6000
  nvSize         := 512
  nvAlias        := none
  bankCmdRange   := [⟨0xFFF0, 0xFFF0⟩]
  ctrlAddrWidth  := 16
  ctrlDataWidth  := 8
  ctrlDsrAddr    := 0x00
  ctrlResetAddr  := 0x01
  auxSerialRange := [⟨0x10, 0x1F⟩]
  cruNativeValue := native
  modeEnabled    := .decided
  dsrWriteMode   := .set
  qualEdge       := true
  waitLogical    := 2
  waitPhysical   := 3

end Sys2Proof.Machine
end

