-- ==== Sys2Proof/Syntax.lean ====
section
/-!
DEFINITION. The block's instructions: one constructor for each row of spec/opcode_table.json (spec/00_scope.md
R5: the transactions on its ports).
-/

namespace Sys2Proof

/-- One transaction. The operands are the fields of 30 R46 that the row's class leaves open. -/
inductive Instr where
  /-- RD: bus read of `la` (44 R112). -/
  | rd (la : LAddr)
  /-- WR: bus write outside `BANK_CMD_RANGE` (44 R114). -/
  | wr (la : LAddr) (d : Byte)
  /-- BLOAD: payload `0000kkk1` written at `la`, an address of `BANK_CMD_RANGE` (42 R94). -/
  | bload (la : LAddr) (k : Slot)
  /-- BSTORE: payload `0000kkk0` (42 R95). -/
  | bstore (la : LAddr) (k : Slot)
  /-- BCMD_IGN: a payload whose bits 7 to 4 are not all zero (42 R96). -/
  | bcmdIgn (la : LAddr) (d : Byte)
  /-- CTL_DSR: value `v` written to `CTRL_DSR_ADDR` (43 R100). -/
  | ctlDsr (v : Nat)
  /-- CTL_RST: value `v` written to `CTRL_RESET_ADDR` (43 R101). -/
  | ctlRst (v : Nat)
  /-- CTL_AUX: a control write in `AUX_SERIAL_RANGE` (43 R102). -/
  | ctlAux (ca : Nat) (v : Nat)
  /-- CTL_OTHER: a control write anywhere else (43 R103). -/
  | ctlOther (ca : Nat) (v : Nat)
  /-- LINE_CRU: the new level of `cruMode` (43 R104). -/
  | lineCru (level : Bool)
  /-- LINE_PTGEN: the new level of `ptgen` (43 R104). -/
  | linePtgen (level : Bool)
  /-- TICK: `clockTick(edge)` (43 R105). -/
  | tick (edge : Bool)
  /-- RESET: system reset (70 R133). -/
  | reset
  deriving DecidableEq, Repr

end Sys2Proof
end

