-- ==== Sys2Proof/WellFormed.lean ====
section
/-!
DEFINITION. When a transaction is well formed under a configuration: its operands are in the class its row of
spec/opcode_table.json names (spec/30_encoding.md R50 to R52) and fit their port's width (R46).
-/

namespace Sys2Proof

/-- A control address fits `CTRL_ADDR_WIDTH` bits. -/
def fitsCtrlAddr (cfg : Config) (ca : Nat) : Bool := decide (ca < 2 ^ cfg.ctrlAddrWidth)

/-- A control value fits `CTRL_DATA_WIDTH` bits. -/
def fitsCtrlData (cfg : Config) (v : Nat) : Bool := decide (v < 2 ^ cfg.ctrlDataWidth)

/-- The well-formed transactions of each row. -/
def Instr.wf (cfg : Config) : Instr → Bool
  | .rd _ => true
  | .wr la _ => !Machine.inBankCmdRange cfg la
  | .bload la _ => Machine.inBankCmdRange cfg la
  | .bstore la _ => Machine.inBankCmdRange cfg la
  | .bcmdIgn la d => Machine.inBankCmdRange cfg la && !Machine.payloadValid d
  | .ctlDsr v => fitsCtrlAddr cfg cfg.ctrlDsrAddr && fitsCtrlData cfg v
  | .ctlRst v => fitsCtrlAddr cfg cfg.ctrlResetAddr && fitsCtrlData cfg v
      && cfg.ctrlResetAddr != cfg.ctrlDsrAddr
  | .ctlAux ca v => fitsCtrlAddr cfg ca && fitsCtrlData cfg v
      && Machine.inRanges cfg.auxSerialRange ca && ca != cfg.ctrlDsrAddr && ca != cfg.ctrlResetAddr
  | .ctlOther ca v => fitsCtrlAddr cfg ca && fitsCtrlData cfg v
      && !Machine.inRanges cfg.auxSerialRange ca && ca != cfg.ctrlDsrAddr && ca != cfg.ctrlResetAddr
  | .lineCru _ => true
  | .linePtgen _ => true
  | .tick _ => true
  | .reset => true

end Sys2Proof
end

