-- ==== Sys2Proof/Decode.lean ====
section
/-!
DEFINITION. From a call on a port to the transaction it is, and back (spec/30_encoding.md R46 to R56). The block
decodes no instruction words: what it decodes is the port, the address and, for a bank command, the payload.
-/

namespace Sys2Proof

/-- Why a call is no transaction: a field does not fit its port's width (30 R46, log entry 10). -/
inductive Reject where
  /-- `ca` is not below 2^CTRL_ADDR_WIDTH. -/
  | ctrlAddressTooWide
  /-- `v` is not below 2^CTRL_DATA_WIDTH. -/
  | ctrlValueTooWide
  deriving DecidableEq, Repr

/-- What decoding answers. -/
inductive Decoded where
  | instr (i : Instr)
  | rejected (r : Reject)
  deriving DecidableEq, Repr

/-- A BUS_W: a bank command in `BANK_CMD_RANGE`, by its payload, and WR elsewhere (30 R48 to R51). -/
def decodeBusWrite (cfg : Config) (la : LAddr) (d : Byte) : Instr :=
  if Machine.inBankCmdRange cfg la then
    if Machine.payloadValid d then
      if Machine.payloadIsLoad d then .bload la (Machine.payloadSlot d)
      else .bstore la (Machine.payloadSlot d)
    else .bcmdIgn la d
  else .wr la d

/-- A CTL is classified by its address alone, in the order of 30 R52. -/
def decodeCtl (cfg : Config) (ca v : Nat) : Instr :=
  if ca = cfg.ctrlDsrAddr then .ctlDsr v
  else if ca = cfg.ctrlResetAddr then .ctlRst v
  else if Machine.inRanges cfg.auxSerialRange ca then .ctlAux ca v
  else .ctlOther ca v

/-- DECODE: total on every call, rejecting by name. -/
def decode (cfg : Config) : Machine.Call → Decoded
  | .busRead la => .instr (.rd la)
  | .busWrite la d => .instr (decodeBusWrite cfg la d)
  | .ctl ca v =>
    if !fitsCtrlAddr cfg ca then .rejected .ctrlAddressTooWide
    else if !fitsCtrlData cfg v then .rejected .ctrlValueTooWide
    else .instr (decodeCtl cfg ca v)
  | .line .cru level => .instr (.lineCru level)
  | .line .ptgen level => .instr (.linePtgen level)
  | .tick edge => .instr (.tick edge)
  | .reset => .instr .reset

/-- ENCODE: the call that a transaction is (30 R46, R48, R60). -/
def encode (cfg : Config) : Instr → Machine.Call
  | .rd la => .busRead la
  | .wr la d => .busWrite la d
  | .bload la k => .busWrite la (Machine.payloadOf k true)
  | .bstore la k => .busWrite la (Machine.payloadOf k false)
  | .bcmdIgn la d => .busWrite la d
  | .ctlDsr v => .ctl cfg.ctrlDsrAddr v
  | .ctlRst v => .ctl cfg.ctrlResetAddr v
  | .ctlAux ca v => .ctl ca v
  | .ctlOther ca v => .ctl ca v
  | .lineCru level => .line .cru level
  | .linePtgen level => .line .ptgen level
  | .tick edge => .tick edge
  | .reset => .reset

/-- The call that a word of spec/opcode_table.json stands for (log entry 3). The table numbers bits only for the
bus formats: 8 bits are a bank command's payload `d` (rows BLOAD and BSTORE), written at the first address of
`BANK_CMD_RANGE`; 16 bits are the `la` of a BUS_R; 24 bits are the `la` and then the `d` of a BUS_W; no bits are
RESET, the one format without a field. No other word stands for a call. -/
def tableCall (cfg : Config) (nbits w : Nat) : Option Machine.Call :=
  match nbits with
  | 0 => some .reset
  | 8 => cfg.bankCmdRange.head?.map fun r => .busWrite (BitVec.ofNat 16 r.lo) (BitVec.ofNat 8 w)
  | 16 => some (.busRead (BitVec.ofNat 16 w))
  | 24 => some (.busWrite (BitVec.ofNat 16 w) (BitVec.ofNat 8 (w / 2 ^ 16)))
  | _ => none

/-- The instruction that the decoder reads from a word of the table, under CFG-T, the configuration that
State.reset carries. -/
def decodeTableWord (nbits w : Nat) : Option Instr :=
  match tableCall (Machine.configT true) nbits w with
  | none => none
  | some c =>
    match decode (Machine.configT true) c with
    | .instr i => some i
    | .rejected _ => none

end Sys2Proof
end

