-- ==== Sys2Proof/Machine/Memory.lean ====
section
/-!
DEFINITION. One byte buffer as sparse data: (index, byte) pairs in one canonical form (spec/10_state.md R24). The
buffer's size is the configuration's; the bounds check stands in Ops.lean.
-/

namespace Sys2Proof.Machine

/-- The listed bytes of a buffer. -/
abbrev Memory := List Host.Cell

/-- What an unlisted byte reads as. Any contents can be listed, so this binds only State.reset's launch contents
(DESIGN CHOICE, unsafe, log entry 7). -/
def Memory.unlisted : Byte := 0#8

/-- The canonical form: indices strictly rise, and no listed byte is the unlisted one. -/
abbrev Memory.wf (m : Memory) : Prop :=
  m.Pairwise (fun c c' => c.1 < c'.1) ∧ ∀ c ∈ m, c.2 ≠ Memory.unlisted

/-- Every listed index lies within a buffer of `n` bytes. -/
abbrev Memory.within (m : Memory) (n : Nat) : Prop := ∀ c ∈ m, c.1 < n

/-- The byte at index `i`. -/
def Memory.read : Memory → Nat → Byte
  | [], _ => Memory.unlisted
  | (j, w) :: m, i => if i = j then w else Memory.read m i

/-- The cell `(i, v)` in front of `m`, or `m` alone where `v` is what an unlisted byte reads as. -/
def Memory.cons (i : Nat) (v : Byte) (m : Memory) : Memory :=
  if v = Memory.unlisted then m else (i, v) :: m

/-- The buffer with `v` at index `i`, in canonical form if it was. -/
def Memory.write : Memory → Nat → Byte → Memory
  | [], i, v => Memory.cons i v []
  | (j, w) :: m, i, v =>
    if i < j then Memory.cons i v ((j, w) :: m)
    else if i = j then Memory.cons i v m
    else (j, w) :: Memory.write m i v

end Sys2Proof.Machine
end

