-- ==== Sys2Proof/Machine/State.lean ====
section
/-!
DEFINITION. The machine's state: everything a transaction may change (spec/10_state.md R13), the constant
configuration, and the inputs that the agents and devices give. Plain data.
-/

namespace Sys2Proof.Machine

/-- The reasons of the sticky fault record, a closed list (10 R27). A step never stops with one: raising it is a
next state that holds the record (log entry 4), as the spec describes it, so both are safe: a claim about good
runs takes `fault = none` as a premise. -/
inductive Fault where
  /-- MemRead or MemWrite at an index not below the buffer's size (00 R9; 41 R75, R76). Safe. -/
  | indexOutOfRange
  /-- A device called the block before it returned (60 R126). Safe. -/
  | nestedAccess
  deriving DecidableEq, Repr

/-- Why a step gives no meaning. -/
inductive Refusal where
  /-- An instruction without a meaning, rejected by name in exec's arm. None is. Safe. -/
  | notModelled (mnemonic : String)
  /-- The configuration fails a check of 00 R7; raised by step, before any transaction. Safe. -/
  | configRefused
  /-- The next call has a field that does not fit its port (30 R46); raised by step. Safe (log entry 10). -/
  | callRejected (r : Reject)
  deriving DecidableEq, Repr

/-- The state. INVENTORY.md lists each field with its rule and its reset value. -/
structure State where
  /-- The configuration (10 R13): no transaction writes it. -/
  cfg         : Config
  /-- The BankTable (10 R18). -/
  bank        : Vector BankWord 16
  /-- 10 R19. -/
  dsrSelected : Bool
  /-- 10 R20. -/
  cruMode     : Bool
  /-- 10 R21. -/
  ptgen       : Bool
  /-- The wait-state down-counter (10 R22). -/
  wait        : Nat
  /-- The level last driven on the ready line (10 R23). -/
  ready       : Bool
  /-- Buffer SRAM (10 R24). -/
  sram        : Memory
  /-- Buffer DRAM (10 R24). -/
  dram        : Memory
  /-- Buffer NV where it is an array of its own; not used under `NV_ALIAS` (10 R24). -/
  nv          : Memory
  /-- The sticky fault record (10 R27). -/
  fault       : Option Fault
  /-- The sticky protocol record (10 R28). -/
  violation   : Bool
  /-- The events emitted, oldest first (10 R26). -/
  trace       : List Event
  /-- The bytes that bus reads returned, oldest first (10 R26). -/
  returned    : List Byte
  /-- The calls still to come, oldest first: the agents' input (60 R128; log entry 2). -/
  inbox       : List Call
  /-- What the device calls still to come do, oldest first: the devices' input (10 R26; log entry 6). -/
  replies     : List DevReply
  /-- How many free bytes have been drawn; the model's own field (log entry 5). -/
  draws       : Nat
  deriving DecidableEq, Repr

/-- The launch state: the reset state with a configuration and the launch contents of the three buffers
(70 R135, 92 D39). -/
def State.launch (cfg : Config) (sram dram nv : Memory) : State where
  cfg         := cfg
  bank        := Vector.replicate 16 0#32
  dsrSelected := false
  cruMode     := true
  ptgen       := false
  wait        := 0
  ready       := true
  sram        := sram
  dram        := dram
  nv          := nv
  fault       := none
  violation   := false
  trace       := []
  returned    := []
  inbox       := []
  replies     := []
  draws       := 0

/-- The machine right after reset (10 R30, 70 R135), under CFG-T and with launch contents of which nothing is
listed (log entries 1, 2, 5 to 8). -/
def State.reset : State := State.launch (configT true) [] [] []

end Sys2Proof.Machine
end

