-- ==== Sys2Proof/Machine/Ops.lean ====
section
/-!
DEFINITION. The named operations over the state: the primitives of spec/00_scope.md R9 (MemRead, MemWrite, emit,
raise, draw), the byte buffers and the alias of the nonvolatile store (spec/10_state.md R24), the device calls
(spec/41_logical_decode.md R79, R80), WAITSET (spec/43_control_timing.md R109), CHECKREADY
(spec/44_bus_transactions.md R119) and the reset of the owned state (spec/70_reset_and_hazards.md R133).
-/

namespace Sys2Proof.Machine

/-- An operation goes on with a value, or has raised a model fault, which ends the transaction (00 R9). -/
inductive Flow (α : Type) where
  | ok (a : α) (s : State)
  | faulted (s : State)

/-- The state that an operation leaves, whichever way it ended. -/
def Flow.state {α : Type} : Flow α → State
  | .ok _ s => s
  | .faulted s => s

/-- First `x`, then `f`; a fault in `x` ends the transaction at once. -/
def Flow.bind {α β : Type} (x : Flow α) (f : α → State → Flow β) : Flow β :=
  match x with
  | .ok a s => f a s
  | .faulted s => .faulted s

/-- `emit E`: append the event to the trace. -/
def State.emit (s : State) (e : Event) : State := { s with trace := s.trace ++ [e] }

/-- Set the sticky fault record; a reason already there stays (10 R27, log entry 4). -/
def State.raiseFault (s : State) (r : Fault) : State := { s with fault := s.fault <|> some r }

/-- `raise Fault(r)`: this is the block's only exceptional exit. It saves nothing and goes nowhere else: the
transaction ends, and the record stays set (00 R9, 10 R27, 60 R124). There is no return operation. -/
def raise {α : Type} (r : Fault) (s : State) : Flow α := .faulted (s.raiseFault r)

/-- The state after one `draw()`. -/
def State.drawn (s : State) : State := { s with draws := s.draws + 1 }

/-- `draw()`: any byte, drawn afresh (41 R78, log entry 5). -/
def draw (s : State) : Flow Byte := .ok (Config.freeByte s.draws) s.drawn

/-- `return v` of a bus read: the byte goes to the CPU (10 R26). -/
def State.returnByte (s : State) (v : Byte) : State := { s with returned := s.returned ++ [v] }

/-- CHECKREADY: the record of an access that starts while the ready line is low (44 R119). -/
def State.checkReady (s : State) : State := { s with violation := s.violation || !s.ready }

/-- WAITSET: the counter is set, the ready line drops, and this is notified (43 R109). -/
def State.waitSet (s : State) (c : Nat) : State :=
  { s with wait := c, ready := false, trace := s.trace ++ [.notifyReady false] }

/-- The fields that RESET writes, at the values of 10 R30, and its notification; nothing else (70 R133). -/
def State.resetOwned (s : State) : State :=
  { s with
    bank := Vector.replicate 16 0#32, dsrSelected := false, cruMode := true, ptgen := false,
    wait := 0, ready := true, trace := s.trace ++ [.notifyReady true] }

/-- The writable buffers (10 R24). -/
inductive Buf where
  | sram | dram | nv
  deriving DecidableEq, Repr

/-- Which array holds a buffer's bytes: NV has its own, or is the first bytes of SRAM or DRAM (10 R24). -/
def bufHome (cfg : Config) : Buf → Buf
  | .sram => .sram
  | .dram => .dram
  | .nv =>
    match cfg.nvAlias with
    | none => .nv
    | some .sram => .sram
    | some .dram => .dram

/-- A buffer's size. Under an alias the store has no byte that its buffer lacks (log entry 9). -/
def bufSize (cfg : Config) : Buf → Nat
  | .sram => cfg.sramSize
  | .dram => cfg.dramSize
  | .nv =>
    match cfg.nvAlias with
    | none => cfg.nvSize
    | some .sram => min cfg.nvSize cfg.sramSize
    | some .dram => min cfg.nvSize cfg.dramSize

/-- The array of that name. -/
def State.array (s : State) : Buf → Memory
  | .sram => s.sram
  | .dram => s.dram
  | .nv => s.nv

/-- Replace the array of that name. -/
def State.setArray (s : State) (b : Buf) (m : Memory) : State :=
  match b with
  | .sram => { s with sram := m }
  | .dram => { s with dram := m }
  | .nv => { s with nv := m }

/-- The byte at index `i` of a buffer, with no bounds check. -/
def State.peek (s : State) (b : Buf) (i : Nat) : Byte := (s.array (bufHome s.cfg b)).read i

/-- Put `v` at index `i` of a buffer, with no bounds check. -/
def State.poke (s : State) (b : Buf) (i : Nat) (v : Byte) : State :=
  s.setArray (bufHome s.cfg b) ((s.array (bufHome s.cfg b)).write i v)

/-- `MemRead(buf, idx, 1)` of a writable buffer (00 R9). -/
def memRead (b : Buf) (i : Nat) (s : State) : Flow Byte :=
  if i < bufSize s.cfg b then .ok (s.peek b i) s else raise .indexOutOfRange s

/-- `MemWrite(buf, idx, 1, v)` (00 R9). -/
def memWrite (b : Buf) (i : Nat) (v : Byte) (s : State) : Flow Unit :=
  if i < bufSize s.cfg b then .ok () (s.poke b i v) else raise .indexOutOfRange s

/-- The byte at index `i` of the ROM image, with no bounds check. -/
def romByte (cfg : Config) (i : Nat) : Byte := Memory.read cfg.rom i

/-- `MemRead(ROM, idx, 1)` (00 R9): the image is configuration (10 R24). -/
def romRead (i : Nat) (s : State) : Flow Byte :=
  if i < s.cfg.romSize then .ok (romByte s.cfg i) s else raise .indexOutOfRange s

/-- EXT read: the event, then the device's answer; a byte that the device marks as not found is a free byte, and
a device that calls back is a fault (41 R79, 60 R126). With no reply listed the device answers a free byte (log
entry 6). -/
def deviceRead (dev : String) (a : PAddr) (s : State) : Flow Byte :=
  match s.replies with
  | [] => draw (s.emit (.devRead dev a))
  | .answer v true :: rest => .ok v { s.emit (.devRead dev a) with replies := rest }
  | .answer _ false :: rest => draw { s.emit (.devRead dev a) with replies := rest }
  | .reenter :: rest => raise .nestedAccess { s.emit (.devRead dev a) with replies := rest }

/-- EXT write: the event, then the device takes the byte or calls back (41 R80, 60 R126). -/
def deviceWrite (dev : String) (a : PAddr) (d : Byte) (s : State) : Flow Unit :=
  match s.replies with
  | [] => .ok () (s.emit (.devWrite dev a d))
  | .answer _ _ :: rest => .ok () { s.emit (.devWrite dev a d) with replies := rest }
  | .reenter :: rest => raise .nestedAccess { s.emit (.devWrite dev a d) with replies := rest }

end Sys2Proof.Machine
end

