-- ==== Sys2Proof/Machine/BankCmd.lean ====
section
/-!
DEFINITION. The bank-persistence commands BLOAD, BSTORE and BCMD_IGN (spec/42_physical_relocation.md R93 to R96,
spec/44_bus_transactions.md R116).
-/

namespace Sys2Proof.Machine

/-- Write one bank-table entry. -/
def State.setBank (s : State) (i : Fin 16) (w : BankWord) : State := { s with bank := s.bank.set i w }

/-- The four bytes at offset `o` of the nonvolatile store as one big-endian word (42 R94). -/
def readNvWord (o : Nat) (s : State) : Flow BankWord :=
  (memRead .nv o s).bind fun b0 s0 =>
  (memRead .nv (o + 1) s0).bind fun b1 s1 =>
  (memRead .nv (o + 2) s1).bind fun b2 s2 =>
  (memRead .nv (o + 3) s2).bind fun b3 s3 => .ok (bigEndian b0 b1 b2 b3) s3

/-- A word to the four bytes at offset `o`, big-endian (42 R95). -/
def writeNvWord (o : Nat) (w : BankWord) (s : State) : Flow Unit :=
  (memWrite .nv o (bigEndianByte w 0) s).bind fun _ s0 =>
  (memWrite .nv (o + 1) (bigEndianByte w 1) s0).bind fun _ s1 =>
  (memWrite .nv (o + 2) (bigEndianByte w 2) s1).bind fun _ s2 =>
  memWrite .nv (o + 3) (bigEndianByte w 3) s2

/-- The loop of 42 R94 over the listed entries. -/
def loadEntries (k : Slot) : List (Fin 16) → State → Flow Unit
  | [], s => .ok () s
  | i :: is, s => (readNvWord (slotOffset k i) s).bind fun w s' => loadEntries k is (s'.setBank i w)

/-- The loop of 42 R95 over the listed entries. -/
def storeEntries (k : Slot) : List (Fin 16) → State → Flow Unit
  | [], s => .ok () s
  | i :: is, s => (writeNvWord (slotOffset k i) s.bank[i] s).bind fun _ s' => storeEntries k is s'

/-- BLOAD k: all sixteen entries from slot k (42 R94). -/
def loadBank (k : Slot) : State → Flow Unit := loadEntries k (List.finRange 16)

/-- BSTORE k: all sixteen entries to slot k (42 R95). -/
def storeBank (k : Slot) : State → Flow Unit := storeEntries k (List.finRange 16)

/-- A bank command as a bus transaction: its work between CHECKREADY and the wait (44 R116). -/
def bankCommand (work : State → Flow Unit) (s : State) : State :=
  match work s.checkReady with
  | .faulted t => t
  | .ok _ t => t.waitSet t.cfg.waitLogical

/-- BLOAD (42 R94, 44 R116). The address has done its work in the classification. -/
def execBload (_la : LAddr) (k : Slot) (s : State) : Host.Outcome State Fault Refusal :=
  .next (bankCommand (loadBank k) s)

/-- BSTORE (42 R95, 44 R116). -/
def execBstore (_la : LAddr) (k : Slot) (s : State) : Host.Outcome State Fault Refusal :=
  .next (bankCommand (storeBank k) s)

/-- BCMD_IGN: no work (42 R96), and still an access (44 R116). -/
def execBcmdIgn (_la : LAddr) (_d : Byte) (s : State) : Host.Outcome State Fault Refusal :=
  .next (bankCommand (fun t => .ok () t) s)

end Sys2Proof.Machine
end

