-- ==== Sys2Proof/Machine/Flags.lean ====
section
/-!
DEFINITION. The mode flags and what they gate: eligibility of an entry (spec/40_registry_and_comparators.md R66,
R67). The block has no arithmetic flags (spec/10_state.md R25).
-/

namespace Sys2Proof.Machine

/-- The native regime is active (10 R20). -/
def State.native (s : State) : Bool := s.cruMode == s.cfg.cruNativeValue

/-- The levels that a scan reads at its start (40 R66). -/
def State.levels (s : State) : FlagLevels := ⟨s.native, s.ptgen, s.dsrSelected⟩

/-- Whether the levels open a gate of `MODE_ENABLED`. -/
def gateOpen (g : ModeGate) (f : FlagLevels) : Bool := g.contains f

/-- `eligL`: a logical entry under the mode flags. An entry of mode PHYSICAL is never eligible there (40 R66). -/
def eligibleLogical (s : State) (e : Entry) : Bool :=
  match e.mode with
  | .native => gateOpen s.cfg.modeEnabled.native s.levels
  | .emulation => gateOpen s.cfg.modeEnabled.emulation s.levels
  | .patgen => gateOpen s.cfg.modeEnabled.patgen s.levels
  | .dsr => gateOpen s.cfg.modeEnabled.dsr s.levels
  | .physical => false

/-- `eligP`: every physical entry is eligible (40 R67). -/
def eligiblePhysical (_ : Entry) : Bool := true

end Sys2Proof.Machine
end

