-- ==== Sys2Proof/Machine/Scan.lean ====
section
/-!
DEFINITION. The comparator array at work: SCAN (spec/40_registry_and_comparators.md R65), ACT
(spec/41_logical_decode.md R74 to R80, spec/42_physical_relocation.md R89) and the two levels of the cascade
(41 R72, R73; 42 R87, R88).
-/

namespace Sys2Proof.Machine

/-- SCAN: priority arbitration with stop-on-match. `hit` is eligible and matching. The answer is `none` where no
entry acted (`found = false`), else the value of the last entry that acted (40 R65). -/
def scan {β : Type} (hit : Entry → Bool) (act : Entry → State → Flow β) :
    List Entry → Option β → State → Flow (Option β)
  | [], last, s => .ok last s
  | e :: es, last, s =>
    if hit e then
      (act e s).bind fun r s' => if e.stop then .ok (some r) s' else scan hit act es (some r) s'
    else scan hit act es last s

/-- The entries that act, in priority order: the eligible matching ones, up to and including the first that stops
(40 R69). The scan's closed form, and the vocabulary of statements; the scan itself does not use it. -/
def acting (hit : Entry → Bool) : List Entry → List Entry
  | [] => []
  | e :: es => if hit e then (if e.stop then [e] else e :: acting hit es) else acting hit es

/-- ACT for a read (41 R74): SRAM and DRAM at the index (R75), ROM at the kind's offset OR-ed with the index
(R76), interrupt-sense a free byte (R78), a device at the unmodified address (R79). -/
def actRead (a : PAddr) (e : Entry) (s : State) : Flow Byte :=
  match e.kind with
  | .pseudo .sram => memRead .sram (entryIndex e a).toNat s
  | .pseudo .dram => memRead .dram (entryIndex e a).toNat s
  | .pseudo .rom0 => romRead (s.cfg.rom0Off ||| entryIndex e a).toNat s
  | .pseudo .rom1 => romRead (s.cfg.rom1Off ||| entryIndex e a).toNat s
  | .pseudo .rom1alt => romRead (s.cfg.rom1altOff ||| entryIndex e a).toNat s
  | .pseudo .ints => draw s
  | .ext dev => deviceRead dev a s

/-- ACT for a write (41 R74): SRAM and DRAM at the index (R75), ROM and interrupt-sense nothing (R77, R78), a
device at the unmodified address (R80). -/
def actWrite (a : PAddr) (d : Byte) (e : Entry) (s : State) : Flow Unit :=
  match e.kind with
  | .pseudo .sram => memWrite .sram (entryIndex e a).toNat d s
  | .pseudo .dram => memWrite .dram (entryIndex e a).toNat d s
  | .pseudo .rom0 => .ok () s
  | .pseudo .rom1 => .ok () s
  | .pseudo .rom1alt => .ok () s
  | .pseudo .ints => .ok () s
  | .ext dev => deviceWrite dev a d s

/-- An eligible logical entry that matches: the flags are read at the scan's start (40 R66, 43 R104). -/
def logicalHit (s : State) (dir : Dir) (la : LAddr) (e : Entry) : Bool :=
  eligibleLogical s e && entryMatches e dir (widen la)

/-- A physical entry that matches (40 R67). -/
def physicalHit (dir : Dir) (pa : PAddr) (e : Entry) : Bool :=
  eligiblePhysical e && entryMatches e dir pa

/-- LREAD (41 R72). -/
def readLogical (la : LAddr) (s : State) : Flow (Option Byte) :=
  scan (logicalHit s .read la) (actRead (widen la)) s.cfg.logical none s

/-- LWRITE (41 R73). -/
def writeLogical (la : LAddr) (d : Byte) (s : State) : Flow (Option Unit) :=
  scan (logicalHit s .write la) (actWrite (widen la) d) s.cfg.logical none s

/-- PREAD: relocate, then scan the physical entries (42 R87). -/
def readPhysical (la : LAddr) (s : State) : Flow (Option Byte) :=
  scan (physicalHit .read (relocate s.bank la)) (actRead (relocate s.bank la)) s.cfg.physical none s

/-- PWRITE (42 R88). -/
def writePhysical (la : LAddr) (d : Byte) (s : State) : Flow (Option Unit) :=
  scan (physicalHit .write (relocate s.bank la)) (actWrite (relocate s.bank la) d) s.cfg.physical none s

end Sys2Proof.Machine
end

