-- ==== Sys2Proof/Machine/Bus.lean ====
section
/-!
DEFINITION. The bus transactions RD and WR: the cascade and its waits (spec/44_bus_transactions.md R112 to R115).
-/

namespace Sys2Proof.Machine

/-- RD after a logical miss: the physical level, its wait, and the byte, or a free byte after a physical miss
(44 R113). -/
def readFallback (la : LAddr) (s : State) : State :=
  match readPhysical la s with
  | .faulted t => t
  | .ok (some v) t => (t.waitSet t.cfg.waitPhysical).returnByte v
  | .ok none t => ((t.waitSet t.cfg.waitPhysical).drawn).returnByte (Config.freeByte t.draws)

/-- RD: the logical level first (44 R112). A fault ends the transaction with no wait and no byte. -/
def busRead (la : LAddr) (s : State) : State :=
  match readLogical la s.checkReady with
  | .faulted t => t
  | .ok (some v) t => (t.waitSet t.cfg.waitLogical).returnByte v
  | .ok none t => readFallback la t

/-- WR after a logical miss; a physical miss discards the write and still waits (44 R115). -/
def writeFallback (la : LAddr) (d : Byte) (s : State) : State :=
  match writePhysical la d s with
  | .faulted t => t
  | .ok _ t => t.waitSet t.cfg.waitPhysical

/-- WR: the logical level first (44 R114). -/
def busWrite (la : LAddr) (d : Byte) (s : State) : State :=
  match writeLogical la d s.checkReady with
  | .faulted t => t
  | .ok (some _) t => t.waitSet t.cfg.waitLogical
  | .ok none t => writeFallback la d t

/-- RD (44 R112). -/
def execRd (la : LAddr) (s : State) : Host.Outcome State Fault Refusal := .next (busRead la s)

/-- WR (44 R114). -/
def execWr (la : LAddr) (d : Byte) (s : State) : Host.Outcome State Fault Refusal := .next (busWrite la d s)

end Sys2Proof.Machine
end

