-- ==== Sys2Proof/Machine/Control.lean ====
section
/-!
DEFINITION. The control writes and the mode lines (spec/43_control_timing.md R100 to R104).
-/

namespace Sys2Proof.Machine

/-- The level that CTL_DSR gives the flag: the data bit under SET, the inverse of the flag under FLIP (43 R100). -/
def dsrLevel (mode : DsrWriteMode) (old : Bool) (v : Nat) : Bool :=
  match mode with
  | .set => dataBit v
  | .flip => !old

/-- CTL_DSR (43 R100). -/
def execCtlDsr (v : Nat) (s : State) : Host.Outcome State Fault Refusal :=
  .next { s with dsrSelected := dsrLevel s.cfg.dsrWriteMode s.dsrSelected v }

/-- CTL_RST: the request goes out; no state changes (43 R101). -/
def execCtlRst (v : Nat) (s : State) : Host.Outcome State Fault Refusal :=
  .next (if dataBit v then s.emit .requestSoftReset else s)

/-- CTL_AUX: nothing (43 R102). -/
def execCtlAux (_ca _v : Nat) (s : State) : Host.Outcome State Fault Refusal := .next s

/-- CTL_OTHER: nothing (43 R103). -/
def execCtlOther (_ca _v : Nat) (s : State) : Host.Outcome State Fault Refusal := .next s

/-- LINE_CRU (43 R104). -/
def execLineCru (level : Bool) (s : State) : Host.Outcome State Fault Refusal := .next { s with cruMode := level }

/-- LINE_PTGEN (43 R104). -/
def execLinePtgen (level : Bool) (s : State) : Host.Outcome State Fault Refusal := .next { s with ptgen := level }

end Sys2Proof.Machine
end

