-- ==== Sys2Proof/Machine/Sequencer.lean ====
section
/-!
DEFINITION. The clock tick (spec/43_control_timing.md R105) and the system reset (spec/70_reset_and_hazards.md
R133).
-/

namespace Sys2Proof.Machine

/-- One qualifying tick of a running counter; the tick that reaches 0 asserts the ready line (43 R105). -/
def State.countDown (s : State) : State :=
  if s.wait = 1 then { s with wait := 0, ready := true, trace := s.trace ++ [.notifyReady true] }
  else { s with wait := s.wait - 1 }

/-- TICK: nothing unless the counter runs and the edge qualifies (43 R105). -/
def execTick (edge : Bool) (s : State) : Host.Outcome State Fault Refusal :=
  .next (if s.wait ≠ 0 ∧ edge = s.cfg.qualEdge then s.countDown else s)

/-- RESET (70 R133). -/
def execReset (s : State) : Host.Outcome State Fault Refusal := .next s.resetOwned

end Sys2Proof.Machine
end

