-- ==== Sys2Proof/Machine/Dispatch.lean ====
section
/-!
DEFINITION. One arm for each instruction, each one direct call of its meaning.
-/

namespace Sys2Proof.Machine

/-- What a transaction does. -/
def exec (i : Instr) (s : State) : Host.Outcome State Fault Refusal :=
  match i with
  | .rd la => Sys2Proof.Machine.execRd la s
  | .wr la d => Sys2Proof.Machine.execWr la d s
  | .bload la k => Sys2Proof.Machine.execBload la k s
  | .bstore la k => Sys2Proof.Machine.execBstore la k s
  | .bcmdIgn la d => Sys2Proof.Machine.execBcmdIgn la d s
  | .ctlDsr v => Sys2Proof.Machine.execCtlDsr v s
  | .ctlRst v => Sys2Proof.Machine.execCtlRst v s
  | .ctlAux ca v => Sys2Proof.Machine.execCtlAux ca v s
  | .ctlOther ca v => Sys2Proof.Machine.execCtlOther ca v s
  | .lineCru level => Sys2Proof.Machine.execLineCru level s
  | .linePtgen level => Sys2Proof.Machine.execLinePtgen level s
  | .tick edge => Sys2Proof.Machine.execTick edge s
  | .reset => Sys2Proof.Machine.execReset s

end Sys2Proof.Machine
end

