-- ==== Sys2Proof/Machine/Fetch.lean ====
section
/-!
DEFINITION. The next call: taken from the agents' input, oldest first (spec/60_exceptions.md R128, log entry 2).
-/

namespace Sys2Proof.Machine

/-- What the agents ask of the block next. -/
inductive Fetched where
  /-- The configuration fails a check of 00 R7. -/
  | noConfig
  /-- No call is pending. -/
  | idle
  /-- The oldest call is no transaction. -/
  | rejected (r : Reject)
  /-- The oldest call is the transaction `i`; `s` is the state with that call taken from the input. -/
  | instr (i : Instr) (s : State)

/-- Check the configuration, take the oldest call, decode it. -/
def fetch (s : State) : Fetched :=
  if configAccepted s.cfg then
    match s.inbox with
    | [] => .idle
    | c :: rest =>
      match decode s.cfg c with
      | .rejected r => .rejected r
      | .instr i => .instr i { s with inbox := rest }
  else .noConfig

/-- The state with a call at the head of the input. -/
def State.push (s : State) (c : Call) : State := { s with inbox := c :: s.inbox }

end Sys2Proof.Machine
end

