-- ==== Sys2Proof/Machine/Step.lean ====
section
/-!
DEFINITION. One step: the oldest pending call, run to completion (spec/00_scope.md R10). With no call pending the
block does nothing (log entry 2).
-/

namespace Sys2Proof.Machine

/-- One transaction. -/
def step (s : State) : Host.Outcome State Fault Refusal :=
  match fetch s with
  | .noConfig => .refused .configRefused
  | .idle => .next s
  | .rejected r => .refused (.callRejected r)
  | .instr i s' => exec i s'

/-- The state whose next step runs the call that a word of the opcode table stands for, under the state's own
configuration (log entry 3); unchanged where the word stands for none. -/
def State.withFetchWord (s : State) (nbits w : Nat) : State :=
  match tableCall s.cfg nbits w with
  | none => s
  | some c => s.push c

end Sys2Proof.Machine
end

