-- ==== Sys2Proof/Safety.lean ====
section
/-!
DEFINITION. What a good state and a good run are: the invariants that the spec states of the sequencer
(spec/10_state.md R22, R23, R30), of the buffers, and of the sticky records (R27, R28).
-/

namespace Sys2Proof.Machine

/-- The level of the ready line after an event. -/
def levelAfter (level : Bool) : Event → Bool
  | .notifyReady b => b
  | .requestSoftReset => level
  | .devRead _ _ => level
  | .devWrite _ _ _ => level

/-- The level that the last `NotifyReady` of a trace drove; asserted where there is none (10 R23). -/
def levelOf (t : List Event) : Bool := t.foldl levelAfter true

/-- The sequencer's invariant: `ready = (wait = 0)`, and the counter in its range (10 R22, R30). -/
abbrev State.sequencerOk (s : State) : Prop :=
  s.ready = decide (s.wait = 0) ∧ s.wait ≤ max s.cfg.waitLogical s.cfg.waitPhysical

/-- `ready` is the level last driven on the ready line (10 R23). -/
abbrev State.lineOk (s : State) : Prop := s.ready = levelOf s.trace

/-- Every buffer is in canonical form and lists no byte that the buffer lacks (10 R24). -/
abbrev State.buffersOk (s : State) : Prop :=
  (s.sram.wf ∧ s.dram.wf ∧ s.nv.wf) ∧
    s.sram.within s.cfg.sramSize ∧ s.dram.within s.cfg.dramSize ∧ s.nv.within s.cfg.nvSize

/-- A good state: no model fault and no protocol violation so far (10 R27, R28). -/
abbrev State.good (s : State) : Prop := s.fault = none ∧ s.violation = false

/-- The transactions that are bus accesses (43 R108). -/
def isAccess : Instr → Bool
  | .rd _ => true
  | .wr _ _ => true
  | .bload _ _ => true
  | .bstore _ _ => true
  | .bcmdIgn _ _ => true
  | .ctlDsr _ => false
  | .ctlRst _ => false
  | .ctlAux _ _ => false
  | .ctlOther _ _ => false
  | .lineCru _ => false
  | .linePtgen _ => false
  | .tick _ => false
  | .reset => false

/-- A call of a device's `readByte` or `writeByte`. -/
def isDeviceEvent : Event → Bool
  | .notifyReady _ => false
  | .requestSoftReset => false
  | .devRead _ _ => true
  | .devWrite _ _ _ => true

/-- What every bus access does besides its work: the protocol record, the counter set to `c`, the ready line
dropped, and the notification, in one record (44 R119, 43 R109). -/
def State.served (s : State) (c : Nat) : State :=
  { s with
    violation := s.violation || !s.ready, wait := c, ready := false,
    trace := s.trace ++ [.notifyReady false] }

/-- Transactions one after another, up to the first that gives no next state. -/
def execAll : List Instr → State → Host.Outcome State Fault Refusal
  | [], s => .next s
  | i :: is, s =>
    match exec i s with
    | .next t => execAll is t
    | .fault r => .fault r
    | .refused r => .refused r

/-- The buffer that an entry of kind SRAM or DRAM reaches. -/
def bufferOf (e : Entry) : Option Buf :=
  match e.kind with
  | .pseudo .sram => some .sram
  | .pseudo .dram => some .dram
  | _ => none

/-- The ROM kinds and interrupt-sense: a write to them is dropped (41 R77, R78). -/
def dropsWrites (e : Entry) : Bool :=
  match e.kind with
  | .pseudo .rom0 => true
  | .pseudo .rom1 => true
  | .pseudo .rom1alt => true
  | .pseudo .ints => true
  | _ => false

/-- The logical entries that act on an access to `la`, in priority order (40 R69). -/
def actingLogical (s : State) (dir : Dir) (la : LAddr) : List Entry :=
  acting (logicalHit s dir la) s.cfg.logical

/-- The physical entries that act on an access to the physical address of `la`, in priority order. -/
def actingPhysical (s : State) (dir : Dir) (la : LAddr) : List Entry :=
  acting (physicalHit dir (relocate s.bank la)) s.cfg.physical

/-- The entries `es` act on the access, at the address `a`, and it takes the wait count `c`: the logical entries
if any acts, else the physical ones (44 R112 to R115). -/
def Reaches (s : State) (dir : Dir) (la : LAddr) (es : List Entry) (a : PAddr) (c : Nat) : Prop :=
  es ≠ [] ∧
  ((actingLogical s dir la = es ∧ a = widen la ∧ c = s.cfg.waitLogical) ∨
   (actingLogical s dir la = [] ∧ actingPhysical s dir la = es ∧
      a = relocate s.bank la ∧ c = s.cfg.waitPhysical))

/-- No entry acts at either level. -/
def Unmapped (s : State) (dir : Dir) (la : LAddr) : Prop :=
  actingLogical s dir la = [] ∧ actingPhysical s dir la = []

/-- The device event of an entry that acts on a read at `a` (41 R79). -/
def readEvents (a : PAddr) (e : Entry) : List Event :=
  match e.kind with
  | .pseudo _ => []
  | .ext dev => [.devRead dev a]

/-- The device event of an entry that acts on a write of `d` at `a` (41 R80). -/
def writeEvents (a : PAddr) (d : Byte) (e : Entry) : List Event :=
  match e.kind with
  | .pseudo _ => []
  | .ext dev => [.devWrite dev a d]

/-- The device events of an access: those of the logical scan in priority order and, on a miss, those of the
physical scan in priority order (44 R118). A bank command has none, and no other transaction is an access. -/
def accessEvents (s : State) : Instr → List Event
  | .rd la => (actingLogical s .read la).flatMap (readEvents (widen la)) ++
      if actingLogical s .read la = [] then
        (actingPhysical s .read la).flatMap (readEvents (relocate s.bank la))
      else []
  | .wr la d => (actingLogical s .write la).flatMap (writeEvents (widen la) d) ++
      if actingLogical s .write la = [] then
        (actingPhysical s .write la).flatMap (writeEvents (relocate s.bank la) d)
      else []
  | .bload _ _ => []
  | .bstore _ _ => []
  | .bcmdIgn _ _ => []
  | .ctlDsr _ => []
  | .ctlRst _ => []
  | .ctlAux _ _ => []
  | .ctlOther _ _ => []
  | .lineCru _ => []
  | .linePtgen _ => []
  | .tick _ => []
  | .reset => []

/-- The state with another bank table and other physical entries. -/
def State.rebase (s : State) (bank : Vector BankWord 16) (physical : List Entry) : State :=
  { s with bank := bank, cfg := { s.cfg with physical := physical } }

/-- The actions of the listed entries, one after another; the last value is the answer (40 R69). -/
def actAll {β : Type} (act : Entry → State → Flow β) : List Entry → Option β → State → Flow (Option β)
  | [], last, s => .ok last s
  | e :: es, _, s => (act e s).bind fun r s' => actAll act es (some r) s'

end Sys2Proof.Machine
end

