-- ==== Sys2Proof/Certificates/Slice0/Obligations.lean ====
section
/-!
DEFINITION. The statements for the provers. Each docstring names the rules it comes from.
-/

open Sys2Proof Sys2Proof.Machine

/-! ### Encoding -/

/-- Decoding the call of any well-formed transaction gives it back, every operand at every value (30 R46 to R53).
Rests on the spec's own decisions D1, D13, D14, D17 (spec/92). -/
def Obligations.DecodeOfEncodeIsIdentity : Prop :=
  ∀ (cfg : Config) (i : Instr), i.wf cfg = true → decode cfg (encode cfg i) = .instr i

/-- A call that decodes, decodes to a well-formed transaction whose call it is: no call has two readings and no
field is lost (30 R46 to R53). Rests on the spec's own decisions D1, D13, D14, D17 (spec/92). -/
def Obligations.EncodeOfDecodeIsIdentity : Prop :=
  ∀ (cfg : Config) (c : Call) (i : Instr),
    decode cfg c = .instr i → encode cfg i = c ∧ i.wf cfg = true

/-- A few calls written out from the spec's scripts and encodings (30 R49, R52, R60; 95 sections 2.7, 2.8). Rests
on the spec's own decisions D14, D17 (spec/92). -/
def Obligations.WrittenOutCallsDecode : Prop :=
  decode (configT true) (.busRead 0x6123) = .instr (.rd 0x6123) ∧
  decode (configT true) (.busRead 0xFFF0) = .instr (.rd 0xFFF0) ∧
  decode (configT true) (.busWrite 0x9001 0x77) = .instr (.wr 0x9001 0x77) ∧
  decode (configT true) (.busWrite 0xFFF0 0x03) = .instr (.bload 0xFFF0 1) ∧
  decode (configT true) (.busWrite 0xFFF0 0x0F) = .instr (.bload 0xFFF0 7) ∧
  decode (configT true) (.busWrite 0xFFF0 0x04) = .instr (.bstore 0xFFF0 2) ∧
  decode (configT true) (.busWrite 0xFFF0 0xF3) = .instr (.bcmdIgn 0xFFF0 0xF3) ∧
  decode (configT true) (.ctl 0x00 0x01) = .instr (.ctlDsr 0x01) ∧
  decode (configT true) (.ctl 0x01 0x01) = .instr (.ctlRst 0x01) ∧
  decode (configT true) (.ctl 0x15 0xFF) = .instr (.ctlAux 0x15 0xFF) ∧
  decode (configT true) (.ctl 0x02 0x01) = .instr (.ctlOther 0x02 0x01) ∧
  decode (configT true) (.line .ptgen true) = .instr (.linePtgen true) ∧
  decode (configT true) (.tick true) = .instr (.tick true) ∧
  decode (configT true) .reset = .instr .reset

/-- 30 R48 to R50: in `BANK_CMD_RANGE` the payload `2k + 1` is BLOAD k, the payload `2k` is BSTORE k, and every
payload from 16 up is BCMD_IGN; elsewhere a bus write is WR; a bus read is always RD. Rests on the spec's own
decisions D13, D14 (spec/92). -/
def Obligations.BankPayloadClassification : Prop :=
  ∀ (cfg : Config) (la : LAddr),
    (inBankCmdRange cfg la = true →
      (∀ k : Slot, decode cfg (.busWrite la (BitVec.ofNat 8 (2 * k.toNat + 1))) = .instr (.bload la k)) ∧
      (∀ k : Slot, decode cfg (.busWrite la (BitVec.ofNat 8 (2 * k.toNat))) = .instr (.bstore la k)) ∧
      (∀ d : Byte, 16 ≤ d.toNat → decode cfg (.busWrite la d) = .instr (.bcmdIgn la d))) ∧
    (inBankCmdRange cfg la = false → ∀ d : Byte, decode cfg (.busWrite la d) = .instr (.wr la d)) ∧
    decode cfg (.busRead la) = .instr (.rd la)

/-- 30 R52: a control call is classified by `ca` alone, in the order DSR, RESET, AUX, other. Rests on the spec's
own decision D17 (spec/92). -/
def Obligations.ControlClassification : Prop :=
  ∀ (cfg : Config) (ca v : Nat), ca < 2 ^ cfg.ctrlAddrWidth → v < 2 ^ cfg.ctrlDataWidth →
    (ca = cfg.ctrlDsrAddr → decode cfg (.ctl ca v) = .instr (.ctlDsr v)) ∧
    (ca ≠ cfg.ctrlDsrAddr → ca = cfg.ctrlResetAddr → decode cfg (.ctl ca v) = .instr (.ctlRst v)) ∧
    (ca ≠ cfg.ctrlDsrAddr → ca ≠ cfg.ctrlResetAddr →
      (∃ r ∈ cfg.auxSerialRange, r.lo ≤ ca ∧ ca ≤ r.hi) →
      decode cfg (.ctl ca v) = .instr (.ctlAux ca v)) ∧
    (ca ≠ cfg.ctrlDsrAddr → ca ≠ cfg.ctrlResetAddr →
      (∀ r ∈ cfg.auxSerialRange, ¬(r.lo ≤ ca ∧ ca ≤ r.hi)) →
      decode cfg (.ctl ca v) = .instr (.ctlOther ca v))

/-! ### The step -/

/-- 00 R10, 60 R128: under an accepted configuration a step is the transaction that the oldest pending call decodes
to, run to completion on the state without that call. That the calls stand in a list is the model's choice (log
entry 2). -/
def Obligations.StepRunsTheOldestCall : Prop :=
  ∀ (s : State) (c : Call) (rest : List Call) (i : Instr),
    configAccepted s.cfg = true → s.inbox = c :: rest → decode s.cfg c = .instr i →
    step s = exec i { s with inbox := rest }

/-- The model's own convention (log entry 2): with no call pending, a step changes nothing. -/
def Obligations.IdleStepChangesNothing : Prop :=
  ∀ s : State, configAccepted s.cfg = true → s.inbox = [] → step s = .next s

/-- 00 R7: a configuration that fails one of the checks (a) to (f) is refused, before any transaction; one that
passes them all is not. Rests on the spec's own decision D30 (spec/92). -/
def Obligations.IllFormedConfigurationIsRefused : Prop :=
  ∀ s : State,
    step s = .refused .configRefused ↔
      ¬((∀ e ∈ s.cfg.logical, e.mask.toNat < 2 ^ 16 ∧ e.pattern.toNat < 2 ^ 16 ∧ e.wsel.toNat < 2 ^ 16) ∧
        (∀ e ∈ s.cfg.logical, e.mode ≠ .physical) ∧ (∀ e ∈ s.cfg.physical, e.mode = .physical) ∧
        (∀ e ∈ s.cfg.logical ++ s.cfg.physical, ∀ dev, e.kind = .ext dev → dev ∈ s.cfg.devices) ∧
        1 ≤ s.cfg.waitLogical ∧ 1 ≤ s.cfg.waitPhysical ∧ 512 ≤ s.cfg.nvSize ∧
        s.cfg.ctrlDsrAddr ≠ s.cfg.ctrlResetAddr ∧
        (∀ r ∈ s.cfg.auxSerialRange, ¬(r.lo ≤ s.cfg.ctrlDsrAddr ∧ s.cfg.ctrlDsrAddr ≤ r.hi)) ∧
        (∀ r ∈ s.cfg.auxSerialRange, ¬(r.lo ≤ s.cfg.ctrlResetAddr ∧ s.cfg.ctrlResetAddr ≤ r.hi)))

/-! ### Registry and comparators -/

/-- 40 R61: BUILD routes the records that RESOLVE keeps by mode, in configuration order; a dropped record leaves no
gap. -/
def Obligations.BuildRoutesRecordsInOrder : Prop :=
  ∀ (pseudoNames : List (String × Pseudo)) (devices : List String) (rs : List Record),
    build pseudoNames devices rs =
      ((rs.filter fun r => decide (r.mode ≠ .physical)).filterMap (resolve pseudoNames devices),
       (rs.filter fun r => decide (r.mode = .physical)).filterMap (resolve pseudoNames devices))

/-- 40 R62, 00 R7(b), (c): a name in `PSEUDO_NAMES` resolves to that pseudo-resource, whatever devices there are;
any other name of a device resolves to that device; an unknown name is dropped; the record's other fields are
copied. What BUILD makes of resolved records passes the checks that R61 and R62 guarantee. Rests on the spec's own
decisions D30, D32 (spec/92). -/
def Obligations.BuiltEntriesPassTheirChecks : Prop :=
  ∀ (pseudoNames : List (String × Pseudo)) (devices : List String),
    (∀ (r : Record) (p : Pseudo), pseudoNames.lookup r.resourceName = some p →
      resolve pseudoNames devices r =
        some ⟨r.addressMask, r.selectPattern, r.writeSelectBit, r.mode, r.stopOnMatch, .pseudo p⟩) ∧
    (∀ r : Record, (∀ x ∈ pseudoNames, x.1 ≠ r.resourceName) → r.resourceName ∈ devices →
      resolve pseudoNames devices r =
        some ⟨r.addressMask, r.selectPattern, r.writeSelectBit, r.mode, r.stopOnMatch, .ext r.resourceName⟩) ∧
    (∀ r : Record, (∀ x ∈ pseudoNames, x.1 ≠ r.resourceName) → r.resourceName ∉ devices →
      resolve pseudoNames devices r = none) ∧
    ∀ rs : List Record,
      (∀ e ∈ (build pseudoNames devices rs).1, e.mode ≠ .physical) ∧
      (∀ e ∈ (build pseudoNames devices rs).2, e.mode = .physical) ∧
      (∀ e ∈ (build pseudoNames devices rs).1 ++ (build pseudoNames devices rs).2,
        ∀ dev, e.kind = .ext dev → dev ∈ devices)

/-- 42 R91: the overlap test of two ROM entries says exactly whether the bytes `off | i` of the one, over every
index `i` within its `~mask`, and those of the other have a common byte. That an entry's window is all of them,
whatever address is matched, is the model's reading (log entry 13, DEDUCED); an entry with a pattern bit outside
its mask never matches (40 R64), and physicalRomWindowsDisjoint passes over it before this test. Rests on the
spec's own decision D12 (spec/92). -/
def Obligations.RomOverlapIsACommonByte : Prop :=
  ∀ (e1 e2 : Entry) (o1 o2 : PAddr),
    romOverlap e1 e2 o1 o2 = true ↔
      ∃ a1 a2 : PAddr, o1 ||| entryIndex e1 a1 = o2 ||| entryIndex e2 a2

/-- 40 R64, with its corner cases: the masked compare; a pattern bit outside the mask never matches; a write-select
bit outside the mask never matches a write; without write-select bits both directions match alike; with a
write-select bit inside the mask that the pattern lacks, no address matches both a read and a write. Rests on the
spec's own decisions D2, D4 (spec/92). -/
def Obligations.MatchIsAMaskedCompare : Prop :=
  ∀ (e : Entry) (a : PAddr),
    (entryMatches e .read a = true ↔ a &&& e.mask = e.pattern) ∧
    (entryMatches e .write a = true ↔ a &&& e.mask = (e.pattern ||| e.wsel)) ∧
    (e.pattern &&& ~~~e.mask ≠ 0#32 → ∀ dir, entryMatches e dir a = false) ∧
    (e.wsel &&& ~~~e.mask ≠ 0#32 → entryMatches e .write a = false) ∧
    (e.wsel = 0#32 → entryMatches e .read a = entryMatches e .write a) ∧
    (e.wsel &&& e.mask &&& ~~~e.pattern ≠ 0#32 →
      (entryMatches e .read a && entryMatches e .write a) = false)

/-- 40 R66, R67: which entries the mode flags let through. Under any table `MODE_ENABLED` (log entry 15), an entry
is eligible exactly when its mode's gate lists the present levels; under the decided table, as R66 writes it. Rests
on the spec's own decisions D5, D6, D7 (spec/92). -/
def Obligations.EligibilityUnderTheDecidedTable : Prop :=
  ∀ (s : State) (e : Entry),
    (e.mode = .native → (eligibleLogical s e = true ↔
      ⟨decide (s.cruMode = s.cfg.cruNativeValue), s.ptgen, s.dsrSelected⟩ ∈ s.cfg.modeEnabled.native)) ∧
    (e.mode = .emulation → (eligibleLogical s e = true ↔
      ⟨decide (s.cruMode = s.cfg.cruNativeValue), s.ptgen, s.dsrSelected⟩ ∈ s.cfg.modeEnabled.emulation)) ∧
    (e.mode = .patgen → (eligibleLogical s e = true ↔
      ⟨decide (s.cruMode = s.cfg.cruNativeValue), s.ptgen, s.dsrSelected⟩ ∈ s.cfg.modeEnabled.patgen)) ∧
    (e.mode = .dsr → (eligibleLogical s e = true ↔
      ⟨decide (s.cruMode = s.cfg.cruNativeValue), s.ptgen, s.dsrSelected⟩ ∈ s.cfg.modeEnabled.dsr)) ∧
    (e.mode = .physical → eligibleLogical s e = false) ∧
    eligiblePhysical e = true ∧
    (s.cfg.modeEnabled = ModeEnabled.decided →
      (e.mode = .native → (eligibleLogical s e = true ↔ s.cruMode = s.cfg.cruNativeValue)) ∧
      (e.mode = .emulation → (eligibleLogical s e = true ↔ s.cruMode ≠ s.cfg.cruNativeValue)) ∧
      (e.mode = .patgen → (eligibleLogical s e = true ↔ s.ptgen = true)) ∧
      (e.mode = .dsr → (eligibleLogical s e = true ↔ s.dsrSelected = true)))

/-- 40 R69: the scan is the actions of its acting sub-list, and that sub-list is the eligible matching entries in
order, up to and including the first that stops. Rests on the spec's own decision D8 (spec/92). -/
def Obligations.ScanIsItsActingSublist : Prop :=
  ∀ (β : Type) (hit : Entry → Bool) (act : Entry → State → Flow β) (L : List Entry) (s : State),
    scan hit act L none s = actAll act (acting hit L) none s ∧
    acting hit L =
      (L.filter hit).takeWhile (fun e => !e.stop) ++ ((L.filter hit).dropWhile fun e => !e.stop).take 1

/-- 40 R70: past an eligible matching entry that stops, nothing is invoked, whatever stands there. -/
def Obligations.NothingActsPastAStop : Prop :=
  ∀ (β : Type) (hit : Entry → Bool) (act : Entry → State → Flow β) (above below : List Entry) (e : Entry)
    (s : State),
    hit e = true → e.stop = true →
    scan hit act (above ++ e :: below) none s = scan hit act (above ++ [e]) none s

/-- 40 R71: a scan that ends finds something exactly when some entry acts. Rests on the spec's own decision D9
(spec/92). -/
def Obligations.FoundExactlyWhenSomeEntryActs : Prop :=
  ∀ (β : Type) (hit : Entry → Bool) (act : Entry → State → Flow β) (L : List Entry) (s t : State)
    (r : Option β),
    scan hit act L none s = .ok r t → (r.isSome = true ↔ ∃ e ∈ L, hit e = true)

/-! ### Relocation -/

/-- 42 R86: the base of the page plus the offset, modulo 2^32. Rests on the spec's own decision D2 (spec/92). -/
def Obligations.RelocationAddsModulo : Prop :=
  ∀ (bank : Vector BankWord 16) (la : LAddr) (h : la.toNat / 4096 < 16),
    (relocate bank la).toNat = ((bank[la.toNat / 4096]).toNat + la.toNat % 4096) % 2 ^ 32

/-- 42 R99: on a page whose entry is 0, relocation is `la & 0xFFF`; after RESET that is every page. -/
def Obligations.RelocationIsIdentityOnAZeroPage : Prop :=
  (∀ (bank : Vector BankWord 16) (la : LAddr),
    bank[pageOf la] = 0#32 → relocate bank la = (la &&& 0xFFF#16).setWidth 32) ∧
  (∀ (s t : State) (la : LAddr), exec .reset s = .next t →
    relocate t.bank la = (la &&& 0xFFF#16).setWidth 32)

/-! ### RD -/

/-- 44 R112, R113 and 41 R75, 42 R90: a read that only an SRAM or DRAM entry answers, at either level, returns the
byte at the index and changes nothing but the wait and the records. Rests on the spec's own decisions D2, D11, D22,
D23 (spec/92). -/
def Obligations.ReadOfABuffer : Prop :=
  ∀ (s : State) (la : LAddr) (e : Entry) (a : PAddr) (c : Nat) (b : Buf),
    Reaches s .read la [e] a c → bufferOf e = some b → (entryIndex e a).toNat < bufSize s.cfg b →
    exec (.rd la) s =
      .next { s.served c with returned := s.returned ++ [s.peek b (entryIndex e a).toNat] }

/-- 41 R76: a read that only a ROM entry answers returns the image's byte at the kind's offset OR-ed with the
index. Rests on the spec's own decisions D12, D22, D23 (spec/92). -/
def Obligations.ReadOfRom : Prop :=
  ∀ (s : State) (la : LAddr) (e : Entry) (a : PAddr) (c : Nat) (off : PAddr),
    Reaches s .read la [e] a c → romOffset s.cfg e = some off →
    (off ||| entryIndex e a).toNat < s.cfg.romSize →
    exec (.rd la) s =
      .next { s.served c with
        returned := s.returned ++ [romByte s.cfg (off ||| entryIndex e a).toNat] }

/-- 41 R78, 42 R92: an interrupt-sense read returns a free byte, and counts as a hit of its level. Rests on the
spec's own decisions D10, D22, D23 (spec/92). -/
def Obligations.ReadOfInterruptSense : Prop :=
  ∀ (s : State) (la : LAddr) (e : Entry) (a : PAddr) (c : Nat),
    Reaches s .read la [e] a c → e.kind = .pseudo .ints →
    exec (.rd la) s =
      .next { s.served c with
        draws := s.draws + 1, returned := s.returned ++ [Config.freeByte s.draws] }

/-- 41 R79: a device read is forwarded at the unmodified address; a found value is returned, and a value that the
device marks as not found is replaced by a free byte. The third clause, with no reply listed, is the model's own
convention (log entry 6). Rests on the spec's own decisions D9, D22, D23, D34 (spec/92). -/
def Obligations.ReadOfADevice : Prop :=
  ∀ (s : State) (la : LAddr) (e : Entry) (a : PAddr) (c : Nat) (dev : String),
    Reaches s .read la [e] a c → e.kind = .ext dev →
    (∀ v rest, s.replies = .answer v true :: rest →
      exec (.rd la) s =
        .next { s.served c with
          trace := s.trace ++ [.devRead dev a, .notifyReady false], replies := rest,
          returned := s.returned ++ [v] }) ∧
    (∀ v rest, s.replies = .answer v false :: rest →
      exec (.rd la) s =
        .next { s.served c with
          trace := s.trace ++ [.devRead dev a, .notifyReady false], replies := rest,
          draws := s.draws + 1, returned := s.returned ++ [Config.freeByte s.draws] }) ∧
    (s.replies = [] →
      exec (.rd la) s =
        .next { s.served c with
          trace := s.trace ++ [.devRead dev a, .notifyReady false],
          draws := s.draws + 1, returned := s.returned ++ [Config.freeByte s.draws] })

/-- 44 R113: a read that no entry answers at either level returns a free byte and takes the physical wait. Rests on
the spec's own decisions D10, D22, D23, D35 (spec/92). -/
def Obligations.ReadOfAnUnmappedAddress : Prop :=
  ∀ (s : State) (la : LAddr), Unmapped s .read la →
    exec (.rd la) s =
      .next { s.served s.cfg.waitPhysical with
        draws := s.draws + 1, returned := s.returned ++ [Config.freeByte s.draws] }

/-- 40 R65: a shadow device in front of a buffer is called first, and the buffer's byte is returned, because the
last acting entry's value wins. Rests on the spec's own decisions D8, D22, D23 (spec/92). -/
def Obligations.ShadowReadReturnsTheLastValue : Prop :=
  ∀ (s : State) (la : LAddr) (e1 e2 : Entry) (a : PAddr) (c : Nat) (dev : String) (b : Buf) (v : Byte)
    (rest : List DevReply),
    Reaches s .read la [e1, e2] a c → e1.kind = .ext dev → bufferOf e2 = some b →
    (entryIndex e2 a).toNat < bufSize s.cfg b → s.replies = .answer v true :: rest →
    exec (.rd la) s =
      .next { s.served c with
        trace := s.trace ++ [.devRead dev a, .notifyReady false], replies := rest,
        returned := s.returned ++ [s.peek b (entryIndex e2 a).toNat] }

/-- 00 R9, 44 R112: a read past the end of its buffer or of the ROM image sets the fault record and ends: no byte,
no wait, the ready line as it was. A record already set stays (the model's choice, log entry 4). Rests on the
spec's own decisions D11, D22 (spec/92). -/
def Obligations.ReadPastTheEndFaults : Prop :=
  ∀ (s : State) (la : LAddr) (e : Entry) (a : PAddr) (c : Nat),
    Reaches s .read la [e] a c →
    ((∃ b, bufferOf e = some b ∧ bufSize s.cfg b ≤ (entryIndex e a).toNat) ∨
      (∃ off, romOffset s.cfg e = some off ∧ s.cfg.romSize ≤ (off ||| entryIndex e a).toNat)) →
    exec (.rd la) s =
      .next { s with
        violation := s.violation || !s.ready, fault := some (s.fault.getD .indexOutOfRange) }

/-- 60 R126, R127: a device that calls back during a read ends the transaction at the device call: its event
stands, no byte, no wait, and no entry after it acts. The first clause is a device that acts first; in the second,
any entries act before it and leave the state `s1`. A fault reason already recorded stays, the model's choice (log
entry 4). Rests on the spec's own decisions D22, D28 (spec/92). -/
def Obligations.ReentryDuringAReadFaults : Prop :=
  ∀ (s : State) (la : LAddr) (e : Entry) (es : List Entry) (a : PAddr) (c : Nat) (dev : String)
    (rest : List DevReply),
    e.kind = .ext dev →
    (Reaches s .read la (e :: es) a c → s.replies = .reenter :: rest →
      exec (.rd la) s =
        .next { s with
          violation := s.violation || !s.ready, trace := s.trace ++ [.devRead dev a], replies := rest,
          fault := some (s.fault.getD .nestedAccess) }) ∧
    (∀ (above : List Entry) (r : Option Byte) (s1 : State),
      Reaches s .read la (above ++ e :: es) a c → actAll (actRead a) above none s.checkReady = .ok r s1 →
      s1.replies = .reenter :: rest →
      exec (.rd la) s =
        .next { s1 with
          trace := s1.trace ++ [.devRead dev a], replies := rest,
          fault := some (s1.fault.getD .nestedAccess) })

/-- The frame of RD, on every path (20 R38, 40 R65, 41 R81, 44 R112): the configuration, the bank table, the mode
flags, the buffers and the pending calls are unchanged, and at most one byte is returned. The wait counter and the
ready line are as before, or the counter is one of the two wait counts and the line is low. Rests on the spec's own
decision D8 (spec/92). -/
def Obligations.ReadFrame : Prop :=
  ∀ (s t : State) (la : LAddr), exec (.rd la) s = .next t →
    t.cfg = s.cfg ∧ t.bank = s.bank ∧ t.dsrSelected = s.dsrSelected ∧ t.cruMode = s.cruMode ∧
    t.ptgen = s.ptgen ∧ t.sram = s.sram ∧ t.dram = s.dram ∧ t.nv = s.nv ∧ t.inbox = s.inbox ∧
    (t.returned = s.returned ∨ ∃ v, t.returned = s.returned ++ [v]) ∧
    ((t.wait = s.wait ∧ t.ready = s.ready) ∨
      ((t.wait = s.cfg.waitLogical ∨ t.wait = s.cfg.waitPhysical) ∧ t.ready = false))

/-! ### WR -/

/-- 44 R114, R115 and 41 R75, 42 R90: a write that only an SRAM or DRAM entry takes, at either level, stores the
byte at the index and changes nothing else but the wait and the records. Rests on the spec's own decisions D2, D11,
D22, D23 (spec/92). -/
def Obligations.WriteOfABuffer : Prop :=
  ∀ (s : State) (la : LAddr) (d : Byte) (e : Entry) (a : PAddr) (c : Nat) (b : Buf),
    Reaches s .write la [e] a c → bufferOf e = some b → (entryIndex e a).toNat < bufSize s.cfg b →
    s.buffersOk →
    ∃ m : Memory,
      exec (.wr la d) s = .next ((s.served c).setArray b m) ∧
      m.read (entryIndex e a).toNat = d ∧
      ∀ i, i ≠ (entryIndex e a).toNat → m.read i = (s.array b).read i

/-- 41 R77, R78 and 20 R41: a write whose acting entries are all ROM or interrupt-sense is dropped, and is a hit of
its level. Rests on the spec's own decisions D10, D22, D23 (spec/92). -/
def Obligations.WriteToRomIsDropped : Prop :=
  ∀ (s : State) (la : LAddr) (d : Byte) (es : List Entry) (a : PAddr) (c : Nat),
    Reaches s .write la es a c → (∀ e ∈ es, dropsWrites e = true) →
    exec (.wr la d) s = .next (s.served c)

/-- 41 R80: a device write is forwarded at the unmodified address with the byte. The clause with no reply listed is
the model's own convention (log entry 6). In the last clause the device calls back (60 R126): its event stands, and
the transaction ends with no wait; a fault reason already recorded stays, the model's choice (log entry 4). Rests
on the spec's own decisions D22, D23, D28, D34 (spec/92). -/
def Obligations.WriteOfADevice : Prop :=
  ∀ (s : State) (la : LAddr) (d : Byte) (e : Entry) (a : PAddr) (c : Nat) (dev : String),
    Reaches s .write la [e] a c → e.kind = .ext dev →
    (∀ v f rest, s.replies = .answer v f :: rest →
      exec (.wr la d) s =
        .next { s.served c with
          trace := s.trace ++ [.devWrite dev a d, .notifyReady false], replies := rest }) ∧
    (s.replies = [] →
      exec (.wr la d) s =
        .next { s.served c with trace := s.trace ++ [.devWrite dev a d, .notifyReady false] }) ∧
    (∀ rest, s.replies = .reenter :: rest →
      exec (.wr la d) s =
        .next { s with
          violation := s.violation || !s.ready, trace := s.trace ++ [.devWrite dev a d], replies := rest,
          fault := some (s.fault.getD .nestedAccess) })

/-- 44 R115: a write that no entry takes at either level is discarded and takes the physical wait. Rests on the
spec's own decisions D22, D23, D35 (spec/92). -/
def Obligations.WriteToAnUnmappedAddressIsDiscarded : Prop :=
  ∀ (s : State) (la : LAddr) (d : Byte), Unmapped s .write la →
    exec (.wr la d) s = .next (s.served s.cfg.waitPhysical)

/-- 00 R9, 44 R114: a write past the end of its buffer sets the fault record and ends: nothing stored, no wait. A
record already set stays (the model's choice, log entry 4). Rests on the spec's own decisions D11, D22 (spec/92). -/
def Obligations.WritePastTheEndFaults : Prop :=
  ∀ (s : State) (la : LAddr) (d : Byte) (e : Entry) (a : PAddr) (c : Nat) (b : Buf),
    Reaches s .write la [e] a c → bufferOf e = some b → bufSize s.cfg b ≤ (entryIndex e a).toNat →
    exec (.wr la d) s =
      .next { s with
        violation := s.violation || !s.ready, fault := some (s.fault.getD .indexOutOfRange) }

/-- 60 R126, R127: a device that calls back during a write ends the transaction there; the entries that acted
before it keep their effects, and none after it acts. In the first clause any entries, or none, act before it and
leave the state `s1`; the second writes `s1` out for one buffer entry. A fault reason already recorded stays, the
model's choice (log entry 4). Rests on the spec's own decisions D22, D28 (spec/92). -/
def Obligations.ReentryKeepsEarlierEffects : Prop :=
  ∀ (s : State) (la : LAddr) (d : Byte) (e : Entry) (es : List Entry) (a : PAddr) (c : Nat) (dev : String)
    (rest : List DevReply),
    e.kind = .ext dev →
    (∀ (above : List Entry) (r : Option Unit) (s1 : State),
      Reaches s .write la (above ++ e :: es) a c → actAll (actWrite a d) above none s.checkReady = .ok r s1 →
      s1.replies = .reenter :: rest →
      exec (.wr la d) s =
        .next { s1 with
          trace := s1.trace ++ [.devWrite dev a d], replies := rest,
          fault := some (s1.fault.getD .nestedAccess) }) ∧
    (∀ (e1 : Entry) (b : Buf),
      Reaches s .write la (e1 :: e :: es) a c → bufferOf e1 = some b →
      (entryIndex e1 a).toNat < bufSize s.cfg b → s.replies = .reenter :: rest →
      exec (.wr la d) s =
        .next { s.poke b (entryIndex e1 a).toNat d with
          violation := s.violation || !s.ready, trace := s.trace ++ [.devWrite dev a d], replies := rest,
          fault := some (s.fault.getD .nestedAccess) })

/-- The frame of WR, on every path: the configuration, the bank table, the mode flags, the returned bytes and the
pending calls are unchanged; a byte of SRAM or DRAM changes only at the index of an acting entry of that buffer, of
the level that serves the write; the NV array is unchanged (40 R65, 41 R73 to R80, R81). Rests on the spec's own
decision D8 (spec/92). -/
def Obligations.WriteFrame : Prop :=
  ∀ (s t : State) (la : LAddr) (d : Byte), exec (.wr la d) s = .next t →
    t.cfg = s.cfg ∧ t.bank = s.bank ∧ t.dsrSelected = s.dsrSelected ∧ t.cruMode = s.cruMode ∧
    t.ptgen = s.ptgen ∧ t.inbox = s.inbox ∧ t.returned = s.returned ∧ t.nv = s.nv ∧
    ∀ (b : Buf) (i : Nat),
      (∀ e ∈ actingLogical s .write la, bufferOf e = some b → (entryIndex e (widen la)).toNat ≠ i) →
      (actingLogical s .write la = [] → ∀ e ∈ actingPhysical s .write la,
        bufferOf e = some b → (entryIndex e (relocate s.bank la)).toNat ≠ i) →
      (t.array b).read i = (s.array b).read i

/-- 20 R40, R42, R43: a byte written is what a later read of the same place returns, by whatever addresses and
entries the two accesses reach it, with any states between that keep that byte. Rests on the spec's own decisions
D26, D27 (spec/92). -/
def Obligations.ReadAfterWriteReturnsTheByte : Prop :=
  ∀ (s t u w : State) (la la' : LAddr) (d : Byte) (e e' : Entry) (a a' : PAddr) (c c' : Nat) (b : Buf),
    s.buffersOk → Reaches s .write la [e] a c → bufferOf e = some b →
    (entryIndex e a).toNat < bufSize s.cfg b →
    exec (.wr la d) s = .next t →
    u.peek b (entryIndex e a).toNat = t.peek b (entryIndex e a).toNat →
    Reaches u .read la' [e'] a' c' → bufferOf e' = some b →
    (entryIndex e' a').toNat = (entryIndex e a).toNat →
    (entryIndex e' a').toNat < bufSize u.cfg b →
    exec (.rd la') u = .next w →
    w.returned = u.returned ++ [d]

/-- 10 R24, 20 R40: where the nonvolatile store is the first bytes of SRAM or of DRAM, a bus write of a byte of
that buffer is what the store holds there, if the store has that byte; every other byte of the store is as it was.
Rests on the spec's own decision D16 (spec/92). -/
def Obligations.AliasedStoreSeesBusWrites : Prop :=
  ∀ (s t : State) (la : LAddr) (d : Byte) (e : Entry) (a : PAddr) (c : Nat) (b : Buf),
    ((s.cfg.nvAlias = some .sram ∧ b = .sram) ∨ (s.cfg.nvAlias = some .dram ∧ b = .dram)) →
    s.buffersOk → Reaches s .write la [e] a c → bufferOf e = some b →
    (entryIndex e a).toNat < bufSize s.cfg b → exec (.wr la d) s = .next t →
    ((entryIndex e a).toNat < bufSize s.cfg .nv → t.peek .nv (entryIndex e a).toNat = d) ∧
    ∀ n, n < bufSize s.cfg .nv → n ≠ (entryIndex e a).toNat → t.peek .nv n = s.peek .nv n

/-- 42 R83: a logical hit never reads the bank table and never reaches a physical entry: with any other bank table
and any other physical entries, the access does the same. -/
def Obligations.LogicalHitIgnoresRelocation : Prop :=
  ∀ (s : State) (la : LAddr) (d : Byte) (bank : Vector BankWord 16) (physical : List Entry),
    (actingLogical s .read la ≠ [] →
      ∀ t, exec (.rd la) s = .next t → exec (.rd la) (s.rebase bank physical) = .next (t.rebase bank physical)) ∧
    (actingLogical s .write la ≠ [] →
      ∀ t, exec (.wr la d) s = .next t →
        exec (.wr la d) (s.rebase bank physical) = .next (t.rebase bank physical))

/-! ### Bank commands -/

/-- 42 R94, 44 R116: where the store has the 64 bytes of slot k, BLOAD k takes all sixteen entries from them,
big-endian, and takes the logical wait. The first clause is every store of at least 512 bytes, and any slot that a
smaller one holds. A store that lacks a byte of the slot (an alias of a small buffer, log entry 9, DEDUCED) sets
IndexOutOfRange: the entries whose bytes it has are loaded, the others stay, and there is no wait; a fault reason
already recorded stays (log entry 4). Rests on the spec's own decisions D11, D15, D16, D22, D23 (spec/92). -/
def Obligations.BankLoadTakesTheSlot : Prop :=
  ∀ (s : State) (la : LAddr) (k : Slot),
    (64 * k.toNat + 64 ≤ bufSize s.cfg .nv →
      exec (.bload la k) s =
        .next { s.served s.cfg.waitLogical with
          bank := Vector.ofFn fun i : Fin 16 =>
            bigEndian (s.peek .nv (64 * k.toNat + 4 * i.val)) (s.peek .nv (64 * k.toNat + 4 * i.val + 1))
              (s.peek .nv (64 * k.toNat + 4 * i.val + 2)) (s.peek .nv (64 * k.toNat + 4 * i.val + 3)) }) ∧
    (bufSize s.cfg .nv < 64 * k.toNat + 64 →
      exec (.bload la k) s =
        .next { s with
          violation := s.violation || !s.ready, fault := some (s.fault.getD .indexOutOfRange),
          bank := Vector.ofFn fun i : Fin 16 =>
            if 64 * k.toNat + 4 * i.val + 4 ≤ bufSize s.cfg .nv then
              bigEndian (s.peek .nv (64 * k.toNat + 4 * i.val)) (s.peek .nv (64 * k.toNat + 4 * i.val + 1))
                (s.peek .nv (64 * k.toNat + 4 * i.val + 2)) (s.peek .nv (64 * k.toNat + 4 * i.val + 3))
            else s.bank[i] })

/-- 42 R95, 44 R116: where the store has the 64 bytes of slot k, BSTORE k writes the sixteen entries to them,
big-endian, changes no other byte, and takes the logical wait. The first clause is every store of at least 512
bytes, and any slot that a smaller one holds. A store that lacks a byte of the slot (an alias of a small buffer,
log entry 9, DEDUCED) sets IndexOutOfRange: the bytes it has are written, no other changes, and there is no wait; a
fault reason already recorded stays (log entry 4). Rests on the spec's own decisions D11, D15, D16, D22, D23
(spec/92). -/
def Obligations.BankStoreFillsTheSlot : Prop :=
  ∀ (s : State) (la : LAddr) (k : Slot), s.buffersOk →
    (64 * k.toNat + 64 ≤ bufSize s.cfg .nv →
      ∃ m : Memory,
        exec (.bstore la k) s = .next ((s.served s.cfg.waitLogical).setArray (bufHome s.cfg .nv) m) ∧
        (∀ i : Fin 16,
          m.read (64 * k.toNat + 4 * i.val) = s.bank[i].extractLsb' 24 8 ∧
          m.read (64 * k.toNat + 4 * i.val + 1) = s.bank[i].extractLsb' 16 8 ∧
          m.read (64 * k.toNat + 4 * i.val + 2) = s.bank[i].extractLsb' 8 8 ∧
          m.read (64 * k.toNat + 4 * i.val + 3) = s.bank[i].extractLsb' 0 8) ∧
        ∀ n, (n < 64 * k.toNat ∨ 64 * k.toNat + 64 ≤ n) →
          m.read n = (s.array (bufHome s.cfg .nv)).read n) ∧
    (bufSize s.cfg .nv < 64 * k.toNat + 64 →
      ∃ m : Memory,
        exec (.bstore la k) s =
          .next (State.setArray { s with
            violation := s.violation || !s.ready, fault := some (s.fault.getD .indexOutOfRange) }
            (bufHome s.cfg .nv) m) ∧
        (∀ (i : Fin 16) (j : Fin 4), 64 * k.toNat + 4 * i.val + j.val < bufSize s.cfg .nv →
          m.read (64 * k.toNat + 4 * i.val + j.val) = s.bank[i].extractLsb' (24 - 8 * j.val) 8) ∧
        ∀ n, (n < 64 * k.toNat ∨ bufSize s.cfg .nv ≤ n) →
          m.read n = (s.array (bufHome s.cfg .nv)).read n)

/-- 42 R96, 44 R116: an ignored bank command does nothing but take the logical wait. Rests on the spec's own
decisions D14, D15, D22, D23 (spec/92). -/
def Obligations.IgnoredBankCommandOnlyWaits : Prop :=
  ∀ (s : State) (la : LAddr) (d : Byte), exec (.bcmdIgn la d) s = .next (s.served s.cfg.waitLogical)

/-- 42 R97: after BSTORE k, whatever happens that leaves the 64 bytes of slot k alone, BLOAD k restores the bank
table of the store. -/
def Obligations.StoreThenLoadRestoresTheBank : Prop :=
  ∀ (s t u w : State) (la la' : LAddr) (k : Slot),
    s.buffersOk → 64 * k.toNat + 64 ≤ bufSize s.cfg .nv → exec (.bstore la k) s = .next t →
    64 * k.toNat + 64 ≤ bufSize u.cfg .nv →
    (∀ n, 64 * k.toNat ≤ n → n < 64 * k.toNat + 64 → u.peek .nv n = t.peek .nv n) →
    exec (.bload la' k) u = .next w →
    w.bank = s.bank

/-- 42 R98: a second BSTORE k with the same bank table leaves the same 64 bytes in slot k. -/
def Obligations.StoringTwiceLeavesTheSameSlot : Prop :=
  ∀ (s t u w : State) (la la' : LAddr) (k : Slot),
    s.buffersOk → 64 * k.toNat + 64 ≤ bufSize s.cfg .nv → exec (.bstore la k) s = .next t →
    u.buffersOk → 64 * k.toNat + 64 ≤ bufSize u.cfg .nv → u.bank = s.bank → exec (.bstore la' k) u = .next w →
    ∀ n, 64 * k.toNat ≤ n → n < 64 * k.toNat + 64 → w.peek .nv n = t.peek .nv n

/-! ### Control, lines, tick, reset -/

/-- 43 R100: CTL_DSR sets the flag to `v[0]` under SET and inverts it under FLIP, and writes nothing else. Rests on
the spec's own decisions D17, D18, D31 (spec/92). -/
def Obligations.ControlDsrWritesTheFlag : Prop :=
  ∀ (s : State) (v : Nat),
    (s.cfg.dsrWriteMode = .set →
      exec (.ctlDsr v) s = .next { s with dsrSelected := decide (v % 2 = 1) }) ∧
    (s.cfg.dsrWriteMode = .flip →
      exec (.ctlDsr v) s = .next { s with dsrSelected := !s.dsrSelected })

/-- 43 R101: CTL_RST sends exactly one request where `v[0] = 1`, nothing where it is 0, and writes no state. Rests
on the spec's own decisions D17, D19, D31 (spec/92). -/
def Obligations.ControlResetSendsOneRequest : Prop :=
  ∀ (s : State) (v : Nat),
    (v % 2 = 1 → exec (.ctlRst v) s = .next { s with trace := s.trace ++ [.requestSoftReset] }) ∧
    (v % 2 = 0 → exec (.ctlRst v) s = .next s)

/-- 43 R102, R103: a control write in the AUX range, and one at any address of no other class, does nothing. A
write in the AUX range is ignored by R102, and its log is not modelled (log entry 18). Rests on the spec's own
decision D33 (spec/92). -/
def Obligations.OtherControlWritesDoNothing : Prop :=
  ∀ (s : State) (ca v : Nat), exec (.ctlAux ca v) s = .next s ∧ exec (.ctlOther ca v) s = .next s

/-- 43 R104: LINE writes its flag with the level and nothing else. Rests on the spec's own decision D29 (spec/92). -/
def Obligations.ModeLinesWriteTheirFlag : Prop :=
  ∀ (s : State) (level : Bool),
    exec (.lineCru level) s = .next { s with cruMode := level } ∧
    exec (.linePtgen level) s = .next { s with ptgen := level }

/-- 43 R105: the four cases of TICK. The qualifying edge is the configuration's. -/
def Obligations.TickCountsDown : Prop :=
  ∀ (s : State) (edge : Bool),
    (s.wait = 0 → exec (.tick edge) s = .next s) ∧
    (edge ≠ s.cfg.qualEdge → exec (.tick edge) s = .next s) ∧
    (edge = s.cfg.qualEdge → s.wait = 1 →
      exec (.tick edge) s =
        .next { s with wait := 0, ready := true, trace := s.trace ++ [.notifyReady true] }) ∧
    (edge = s.cfg.qualEdge → 2 ≤ s.wait → exec (.tick edge) s = .next { s with wait := s.wait - 1 })

/-- 70 R133: RESET writes exactly the listed fields, from any state, and notifies the ready line. Rests on the
spec's own decisions D23, D25 (spec/92). -/
def Obligations.ResetWritesTheOwnedState : Prop :=
  ∀ s : State,
    exec .reset s =
      .next { s with
        bank := Vector.replicate 16 0#32, dsrSelected := false, cruMode := true, ptgen := false,
        wait := 0, ready := true, trace := s.trace ++ [.notifyReady true] }

/-- 10 R30: the reset values of the registers at State.reset, with no fault and no violation. Rests on the spec's
own decisions D6, D11, D22 (spec/92). -/
def Obligations.ResetStateHasTheResetValues : Prop :=
  (∀ i : Fin 16, State.reset.bank[i] = 0#32) ∧ State.reset.dsrSelected = false ∧
  State.reset.cruMode = true ∧ State.reset.ptgen = false ∧ State.reset.wait = 0 ∧
  State.reset.ready = true ∧ State.reset.fault = none ∧ State.reset.violation = false

/-! ### The whole machine -/

/-- 43 R107: from a running counter, over any CTL, LINE and TICK transactions, the ready line stays low and no
`NotifyReady(true)` is emitted before the c-th qualifying tick; from that tick on it is high, and exactly one has
been emitted. -/
def Obligations.ReadyReturnsAtTheLastQualifyingTick : Prop :=
  ∀ (s : State) (is : List Instr),
    1 ≤ s.wait → s.ready = false → (∀ i ∈ is, isAccess i = false ∧ i ≠ .reset) →
    ∃ t, execAll is s = .next t ∧
      (is.count (.tick s.cfg.qualEdge) < s.wait →
        t.wait = s.wait - is.count (.tick s.cfg.qualEdge) ∧ t.ready = false ∧
        t.trace.count (.notifyReady true) = s.trace.count (.notifyReady true)) ∧
      (s.wait ≤ is.count (.tick s.cfg.qualEdge) →
        t.wait = 0 ∧ t.ready = true ∧
        t.trace.count (.notifyReady true) = s.trace.count (.notifyReady true) + 1)

/-- 10 R22, R30: every step keeps `ready = (wait = 0)` and the counter's range. Rests on the spec's own decision
D23 (spec/92). -/
def Obligations.EveryStepKeepsTheSequencer : Prop :=
  ∀ s t : State, s.sequencerOk → step s = .next t → t.sequencerOk

/-- 10 R23: every step keeps `ready` the level that the trace last drove. Rests on the spec's own decision D23
(spec/92). -/
def Obligations.EveryStepKeepsTheReadyLine : Prop :=
  ∀ s t : State, s.lineOk → step s = .next t → t.lineOk

/-- Every step keeps every buffer in canonical form and within its size (10 R24; the canonical form is the model's
own). Rests on the spec's own decision D11 (spec/92). -/
def Obligations.EveryStepKeepsTheBuffers : Prop :=
  ∀ s t : State, s.buffersOk → step s = .next t → t.buffersOk

/-- The three invariants hold at the launch state under any configuration, with any launch contents in canonical
form and within their sizes; State.reset is one. Rests on the spec's own decision D39 (spec/92). -/
def Obligations.LaunchStateMeetsTheInvariants : Prop :=
  (∀ (cfg : Config) (sram dram nv : Memory),
    sram.wf → dram.wf → nv.wf → sram.within cfg.sramSize → dram.within cfg.dramSize → nv.within cfg.nvSize →
    (State.launch cfg sram dram nv).sequencerOk ∧ (State.launch cfg sram dram nv).lineOk ∧
      (State.launch cfg sram dram nv).buffersOk) ∧
  State.reset = State.launch (configT true) [] [] []

/-- 10 R13, R27, R28, 40 R63: no step changes the configuration, clears the fault record or clears the violation
record, and the outputs only grow. That a set fault record keeps its reason is the model's choice (log entry 4):
R27 says only that it is never cleared. Rests on the spec's own decisions D11, D22, D28 (spec/92). -/
def Obligations.RecordsAreStickyAndOutputsGrow : Prop :=
  ∀ s t : State, step s = .next t →
    t.cfg = s.cfg ∧ (∀ r, s.fault = some r → t.fault = some r) ∧ (s.violation = true → t.violation = true) ∧
    (∃ es, t.trace = s.trace ++ es) ∧ (∃ vs, t.returned = s.returned ++ vs)

/-- 44 R119, 10 R28, 43 R108: a bus access, and only a bus access, sets the violation record, exactly where the
ready line is low; CTL and LINE leave the counter and the ready line alone. Rests on the spec's own decisions D20,
D22 (spec/92). -/
def Obligations.ViolationExactlyOnAnEarlyAccess : Prop :=
  ∀ (i : Instr) (s t : State), exec i s = .next t →
    (isAccess i = true → t.violation = (s.violation || !s.ready)) ∧
    (isAccess i = false → t.violation = s.violation) ∧
    (isAccess i = false → i ≠ .reset → (∀ edge, i ≠ .tick edge) → t.wait = s.wait ∧ t.ready = s.ready)

/-- 10 R18 to R21: the bank table is written only by BLOAD and RESET, `dsrSelected` only by CTL_DSR and RESET,
`cruMode` only by LINE_CRU and RESET, `ptgen` only by LINE_PTGEN and RESET. Rests on the spec's own decisions D18,
D29 (spec/92). -/
def Obligations.RegistersHaveTheirWriters : Prop :=
  ∀ (i : Instr) (s t : State), exec i s = .next t → i ≠ .reset →
    ((∀ la k, i ≠ .bload la k) → t.bank = s.bank) ∧
    ((∀ v, i ≠ .ctlDsr v) → t.dsrSelected = s.dsrSelected) ∧
    ((∀ level, i ≠ .lineCru level) → t.cruMode = s.cruMode) ∧
    ((∀ level, i ≠ .linePtgen level) → t.ptgen = s.ptgen)

/-- 44 R118: a bus access emits the device events of the logical scan in priority order, on a miss those of the
physical scan in priority order (`accessEvents`), and then exactly one `NotifyReady(false)`. One that ends in a
model fault emits a first part of those device events alone, and leaves the counter and the ready line as they were
(R117). The premise that no fault record is set tells the two apart. Rests on the spec's own decisions D11, D23,
D28, D36 (spec/92). -/
def Obligations.AccessEventsComeInOrder : Prop :=
  ∀ (i : Instr) (s t : State), isAccess i = true → s.fault = none → exec i s = .next t →
    (∀ e ∈ accessEvents s i, isDeviceEvent e = true) ∧
    (t.fault = none → t.trace = s.trace ++ accessEvents s i ++ [.notifyReady false] ∧ t.ready = false) ∧
    (t.fault ≠ none →
      ∃ devs : List Event, devs <+: accessEvents s i ∧ t.trace = s.trace ++ devs ∧
        t.wait = s.wait ∧ t.ready = s.ready)

/-- 44 R117: the wait count of each bus access that ends without a model fault. Rests on the spec's own decisions
D15, D35 (spec/92). -/
def Obligations.WaitCountOfEachAccess : Prop :=
  ∀ (s t : State),
    (∀ la, exec (.rd la) s = .next t → t.fault = none →
      t.wait = if actingLogical s .read la = [] then s.cfg.waitPhysical else s.cfg.waitLogical) ∧
    (∀ la d, exec (.wr la d) s = .next t → t.fault = none →
      t.wait = if actingLogical s .write la = [] then s.cfg.waitPhysical else s.cfg.waitLogical) ∧
    (∀ la k, exec (.bload la k) s = .next t → t.fault = none → t.wait = s.cfg.waitLogical) ∧
    (∀ la k, exec (.bstore la k) s = .next t → t.fault = none → t.wait = s.cfg.waitLogical) ∧
    (∀ la d, exec (.bcmdIgn la d) s = .next t → t.wait = s.cfg.waitLogical)

/-- 44 R118, 43 R101: only TICK and RESET emit `NotifyReady(true)`, and only CTL_RST emits `RequestSoftReset`.
Rests on the spec's own decisions D19, D23 (spec/92). -/
def Obligations.EventsHaveTheirSenders : Prop :=
  ∀ (i : Instr) (s t : State), exec i s = .next t →
    (i ≠ .reset → (∀ edge, i ≠ .tick edge) →
      t.trace.count (.notifyReady true) = s.trace.count (.notifyReady true)) ∧
    ((∀ v, i ≠ .ctlRst v) → t.trace.count .requestSoftReset = s.trace.count .requestSoftReset)
end

