-- ==== Sys2Proof/Laws/Memory.lean ====
section
/-!
SUPPORT. The buffer's laws: read after write, the frame of a write, and that every operation keeps the canonical
form and the bounds.
-/

namespace Sys2Proof.Machine

@[simp] theorem Memory.read_nil (i : Nat) : Memory.read [] i = Memory.unlisted := rfl

theorem Memory.read_cell (j : Nat) (w : Byte) (m : Memory) (i : Nat) :
    Memory.read ((j, w) :: m) i = if i = j then w else Memory.read m i := rfl

/-- A buffer reads the unlisted byte below its first listed index. -/
theorem Memory.read_of_below {m : Memory} {i : Nat} (h : ∀ c ∈ m, i < c.1) :
    m.read i = Memory.unlisted := by
  induction m with
  | nil => rfl
  | cons c m ih =>
    have hc : i ≠ c.1 := Nat.ne_of_lt (h c List.mem_cons_self)
    rw [show c = (c.1, c.2) from rfl, Memory.read_cell, if_neg hc]
    exact ih fun c' hc' => h c' (List.mem_cons_of_mem _ hc')

theorem Memory.read_cons_other {i k : Nat} (h : k ≠ i) (v : Byte) (m : Memory) :
    (Memory.cons i v m).read k = m.read k := by
  unfold Memory.cons
  split
  · rfl
  · rw [Memory.read_cell, if_neg h]

theorem Memory.read_cons_same {i : Nat} {m : Memory} (h : ∀ c ∈ m, i < c.1) (v : Byte) :
    (Memory.cons i v m).read i = v := by
  unfold Memory.cons
  split
  case isTrue hv => rw [Memory.read_of_below h, hv]
  case isFalse => rw [Memory.read_cell, if_pos rfl]

/-- A write leaves every other index alone, whatever form the list has. -/
theorem Memory.read_write_other {k i : Nat} (h : k ≠ i) (m : Memory) (v : Byte) :
    (m.write i v).read k = m.read k := by
  induction m with
  | nil => exact Memory.read_cons_other h v []
  | cons c m ih =>
    obtain ⟨j, w⟩ := c
    unfold Memory.write
    split
    · exact Memory.read_cons_other h v _
    · split
      case isTrue _ hij =>
        rw [Memory.read_cons_other h, Memory.read_cell, if_neg (hij ▸ h)]
      case isFalse => simp only [Memory.read_cell, ih]

/-- A read after a write at the same index gives the byte written. -/
theorem Memory.read_write_same {m : Memory} (hm : m.wf) (i : Nat) (v : Byte) : (m.write i v).read i = v := by
  obtain ⟨hs, hn⟩ := hm
  induction m with
  | nil => exact Memory.read_cons_same (by simp) v
  | cons c m ih =>
    obtain ⟨j, w⟩ := c
    rw [List.pairwise_cons] at hs
    unfold Memory.write
    split
    case isTrue hij =>
      refine Memory.read_cons_same (fun c hc => ?_) v
      rcases List.mem_cons.mp hc with rfl | hc
      · exact hij
      · exact Nat.lt_trans hij (hs.1 c hc)
    case isFalse =>
      split
      case isTrue hij => exact Memory.read_cons_same (fun c hc => hij ▸ hs.1 c hc) v
      case isFalse hij =>
        rw [Memory.read_cell, if_neg hij]
        exact ih hs.2 fun c hc => hn c (List.mem_cons_of_mem _ hc)

theorem Memory.mem_cons {c : Host.Cell} {i : Nat} {v : Byte} {m : Memory} (h : c ∈ Memory.cons i v m) :
    (c = (i, v) ∧ v ≠ Memory.unlisted) ∨ c ∈ m := by
  unfold Memory.cons at h
  split at h
  · exact .inr h
  · rcases List.mem_cons.mp h with h | h
    · exact .inl ⟨h, ‹_›⟩
    · exact .inr h

/-- Every cell after a write is the written one, and then listed by right, or was there before. -/
theorem Memory.mem_write {c : Host.Cell} {i : Nat} {v : Byte} {m : Memory} (h : c ∈ m.write i v) :
    (c = (i, v) ∧ v ≠ Memory.unlisted) ∨ c ∈ m := by
  induction m with
  | nil => exact Memory.mem_cons h
  | cons d m ih =>
    obtain ⟨j, w⟩ := d
    unfold Memory.write at h
    split at h
    · exact Memory.mem_cons h
    · split at h
      · exact (Memory.mem_cons h).imp_right (List.mem_cons_of_mem _)
      · rcases List.mem_cons.mp h with h | h
        · exact .inr (h ▸ List.mem_cons_self)
        · exact (ih h).imp_right (List.mem_cons_of_mem _)

theorem Memory.pairwise_cons {i : Nat} {v : Byte} {m : Memory} (hs : m.Pairwise (fun c c' => c.1 < c'.1))
    (h : ∀ c ∈ m, i < c.1) : (Memory.cons i v m).Pairwise (fun c c' => c.1 < c'.1) := by
  unfold Memory.cons
  split
  · exact hs
  · exact List.pairwise_cons.mpr ⟨h, hs⟩

/-- A write keeps the canonical form. -/
theorem Memory.write_wf {m : Memory} (hm : m.wf) (i : Nat) (v : Byte) : (m.write i v).wf := by
  refine ⟨?_, fun c hc => ?_⟩
  · have hs := hm.1
    clear hm
    induction m with
    | nil => exact Memory.pairwise_cons .nil (by simp)
    | cons d m ih =>
      obtain ⟨j, w⟩ := d
      have hs' := List.pairwise_cons.mp hs
      unfold Memory.write
      split
      case isTrue hij =>
        refine Memory.pairwise_cons hs fun c hc => ?_
        rcases List.mem_cons.mp hc with rfl | hc
        · exact hij
        · exact Nat.lt_trans hij (hs'.1 c hc)
      case isFalse hlt =>
        split
        case isTrue hij => exact Memory.pairwise_cons hs'.2 fun c hc => hij ▸ hs'.1 c hc
        case isFalse hij =>
          refine List.pairwise_cons.mpr ⟨fun c hc => ?_, ih hs'.2⟩
          rcases Memory.mem_write hc with ⟨rfl, -⟩ | hc
          · exact (by omega : j < i)
          · exact hs'.1 c hc
  · rcases Memory.mem_write hc with ⟨rfl, hv⟩ | hc
    · exact hv
    · exact hm.2 c hc

/-- A write within the bounds keeps the bounds. -/
theorem Memory.write_within {m : Memory} {n i : Nat} (hm : m.within n) (hi : i < n) (v : Byte) :
    (m.write i v).within n := by
  intro c hc
  rcases Memory.mem_write hc with ⟨rfl, -⟩ | hc
  · exact hi
  · exact hm c hc

/-- Two buffers in canonical form with the same bytes are the same data. -/
theorem Memory.eq_of_read_eq {m m' : Memory} (hm : m.wf) (hm' : m'.wf) (h : ∀ i, m.read i = m'.read i) :
    m = m' := by
  induction m generalizing m' with
  | nil =>
    cases m' with
    | nil => rfl
    | cons d m' =>
      have := h d.1
      rw [show d = (d.1, d.2) from rfl, Memory.read_cell, if_pos rfl] at this
      exact absurd this.symm (hm'.2 d List.mem_cons_self)
  | cons c m ih =>
    obtain ⟨j, w⟩ := c
    have hc := List.pairwise_cons.mp hm.1
    cases m' with
    | nil =>
      have := h j
      rw [Memory.read_cell, if_pos rfl] at this
      exact absurd this (hm.2 _ List.mem_cons_self)
    | cons d m' =>
      obtain ⟨j', w'⟩ := d
      have hd := List.pairwise_cons.mp hm'.1
      have hj : j = j' := by
        rcases Nat.lt_trichotomy j j' with hlt | heq | hlt
        · have := h j
          rw [Memory.read_cell, if_pos rfl, Memory.read_of_below (m := (j', w') :: m')] at this
          · exact absurd this (hm.2 _ List.mem_cons_self)
          · intro c hc'
            rcases List.mem_cons.mp hc' with rfl | hc'
            · exact hlt
            · exact Nat.lt_trans hlt (hd.1 c hc')
        · exact heq
        · have := h j'
          rw [Memory.read_cell j' w', if_pos rfl, Memory.read_of_below (m := (j, w) :: m)] at this
          · exact absurd this.symm (hm'.2 _ List.mem_cons_self)
          · intro c hc'
            rcases List.mem_cons.mp hc' with rfl | hc'
            · exact hlt
            · exact Nat.lt_trans hlt (hc.1 c hc')
      subst hj
      have hw : w = w' := by
        have := h j
        rwa [Memory.read_cell, if_pos rfl, Memory.read_cell, if_pos rfl] at this
      subst hw
      refine congrArg _ (ih ⟨hc.2, fun c h => hm.2 c (List.mem_cons_of_mem _ h)⟩
        ⟨hd.2, fun c h => hm'.2 c (List.mem_cons_of_mem _ h)⟩ fun i => ?_)
      by_cases hij : i = j
      · subst hij
        rw [Memory.read_of_below hc.1, Memory.read_of_below hd.1]
      · have := h i
        rwa [Memory.read_cell, if_neg hij, Memory.read_cell, if_neg hij] at this

end Sys2Proof.Machine
end

