-- ==== Sys2Proof/Laws/State.lean ====
section
/-!
SUPPORT. Each field after each named update of the state, so that no later proof unfolds a record update.
-/

namespace Sys2Proof.Machine

variable (s : State)

/-! ### `emit` -/

@[simp] theorem State.emit_cfg (e : Event) : (s.emit e).cfg = s.cfg := rfl
@[simp] theorem State.emit_bank (e : Event) : (s.emit e).bank = s.bank := rfl
@[simp] theorem State.emit_dsrSelected (e : Event) : (s.emit e).dsrSelected = s.dsrSelected := rfl
@[simp] theorem State.emit_cruMode (e : Event) : (s.emit e).cruMode = s.cruMode := rfl
@[simp] theorem State.emit_ptgen (e : Event) : (s.emit e).ptgen = s.ptgen := rfl
@[simp] theorem State.emit_wait (e : Event) : (s.emit e).wait = s.wait := rfl
@[simp] theorem State.emit_ready (e : Event) : (s.emit e).ready = s.ready := rfl
@[simp] theorem State.emit_sram (e : Event) : (s.emit e).sram = s.sram := rfl
@[simp] theorem State.emit_dram (e : Event) : (s.emit e).dram = s.dram := rfl
@[simp] theorem State.emit_nv (e : Event) : (s.emit e).nv = s.nv := rfl
@[simp] theorem State.emit_fault (e : Event) : (s.emit e).fault = s.fault := rfl
@[simp] theorem State.emit_violation (e : Event) : (s.emit e).violation = s.violation := rfl
@[simp] theorem State.emit_trace (e : Event) : (s.emit e).trace = s.trace ++ [e] := rfl
@[simp] theorem State.emit_returned (e : Event) : (s.emit e).returned = s.returned := rfl
@[simp] theorem State.emit_inbox (e : Event) : (s.emit e).inbox = s.inbox := rfl
@[simp] theorem State.emit_replies (e : Event) : (s.emit e).replies = s.replies := rfl
@[simp] theorem State.emit_draws (e : Event) : (s.emit e).draws = s.draws := rfl

/-! ### `raiseFault` -/

@[simp] theorem State.raiseFault_cfg (r : Fault) : (s.raiseFault r).cfg = s.cfg := rfl
@[simp] theorem State.raiseFault_bank (r : Fault) : (s.raiseFault r).bank = s.bank := rfl
@[simp] theorem State.raiseFault_dsrSelected (r : Fault) : (s.raiseFault r).dsrSelected = s.dsrSelected := rfl
@[simp] theorem State.raiseFault_cruMode (r : Fault) : (s.raiseFault r).cruMode = s.cruMode := rfl
@[simp] theorem State.raiseFault_ptgen (r : Fault) : (s.raiseFault r).ptgen = s.ptgen := rfl
@[simp] theorem State.raiseFault_wait (r : Fault) : (s.raiseFault r).wait = s.wait := rfl
@[simp] theorem State.raiseFault_ready (r : Fault) : (s.raiseFault r).ready = s.ready := rfl
@[simp] theorem State.raiseFault_sram (r : Fault) : (s.raiseFault r).sram = s.sram := rfl
@[simp] theorem State.raiseFault_dram (r : Fault) : (s.raiseFault r).dram = s.dram := rfl
@[simp] theorem State.raiseFault_nv (r : Fault) : (s.raiseFault r).nv = s.nv := rfl
@[simp] theorem State.raiseFault_fault (r : Fault) : (s.raiseFault r).fault = (s.fault <|> some r) := rfl
@[simp] theorem State.raiseFault_violation (r : Fault) : (s.raiseFault r).violation = s.violation := rfl
@[simp] theorem State.raiseFault_trace (r : Fault) : (s.raiseFault r).trace = s.trace := rfl
@[simp] theorem State.raiseFault_returned (r : Fault) : (s.raiseFault r).returned = s.returned := rfl
@[simp] theorem State.raiseFault_inbox (r : Fault) : (s.raiseFault r).inbox = s.inbox := rfl
@[simp] theorem State.raiseFault_replies (r : Fault) : (s.raiseFault r).replies = s.replies := rfl
@[simp] theorem State.raiseFault_draws (r : Fault) : (s.raiseFault r).draws = s.draws := rfl

/-! ### `drawn` -/

@[simp] theorem State.drawn_cfg : (s.drawn).cfg = s.cfg := rfl
@[simp] theorem State.drawn_bank : (s.drawn).bank = s.bank := rfl
@[simp] theorem State.drawn_dsrSelected : (s.drawn).dsrSelected = s.dsrSelected := rfl
@[simp] theorem State.drawn_cruMode : (s.drawn).cruMode = s.cruMode := rfl
@[simp] theorem State.drawn_ptgen : (s.drawn).ptgen = s.ptgen := rfl
@[simp] theorem State.drawn_wait : (s.drawn).wait = s.wait := rfl
@[simp] theorem State.drawn_ready : (s.drawn).ready = s.ready := rfl
@[simp] theorem State.drawn_sram : (s.drawn).sram = s.sram := rfl
@[simp] theorem State.drawn_dram : (s.drawn).dram = s.dram := rfl
@[simp] theorem State.drawn_nv : (s.drawn).nv = s.nv := rfl
@[simp] theorem State.drawn_fault : (s.drawn).fault = s.fault := rfl
@[simp] theorem State.drawn_violation : (s.drawn).violation = s.violation := rfl
@[simp] theorem State.drawn_trace : (s.drawn).trace = s.trace := rfl
@[simp] theorem State.drawn_returned : (s.drawn).returned = s.returned := rfl
@[simp] theorem State.drawn_inbox : (s.drawn).inbox = s.inbox := rfl
@[simp] theorem State.drawn_replies : (s.drawn).replies = s.replies := rfl
@[simp] theorem State.drawn_draws : (s.drawn).draws = s.draws + 1 := rfl

/-! ### `returnByte` -/

@[simp] theorem State.returnByte_cfg (v : Byte) : (s.returnByte v).cfg = s.cfg := rfl
@[simp] theorem State.returnByte_bank (v : Byte) : (s.returnByte v).bank = s.bank := rfl
@[simp] theorem State.returnByte_dsrSelected (v : Byte) : (s.returnByte v).dsrSelected = s.dsrSelected := rfl
@[simp] theorem State.returnByte_cruMode (v : Byte) : (s.returnByte v).cruMode = s.cruMode := rfl
@[simp] theorem State.returnByte_ptgen (v : Byte) : (s.returnByte v).ptgen = s.ptgen := rfl
@[simp] theorem State.returnByte_wait (v : Byte) : (s.returnByte v).wait = s.wait := rfl
@[simp] theorem State.returnByte_ready (v : Byte) : (s.returnByte v).ready = s.ready := rfl
@[simp] theorem State.returnByte_sram (v : Byte) : (s.returnByte v).sram = s.sram := rfl
@[simp] theorem State.returnByte_dram (v : Byte) : (s.returnByte v).dram = s.dram := rfl
@[simp] theorem State.returnByte_nv (v : Byte) : (s.returnByte v).nv = s.nv := rfl
@[simp] theorem State.returnByte_fault (v : Byte) : (s.returnByte v).fault = s.fault := rfl
@[simp] theorem State.returnByte_violation (v : Byte) : (s.returnByte v).violation = s.violation := rfl
@[simp] theorem State.returnByte_trace (v : Byte) : (s.returnByte v).trace = s.trace := rfl
@[simp] theorem State.returnByte_returned (v : Byte) : (s.returnByte v).returned = s.returned ++ [v] := rfl
@[simp] theorem State.returnByte_inbox (v : Byte) : (s.returnByte v).inbox = s.inbox := rfl
@[simp] theorem State.returnByte_replies (v : Byte) : (s.returnByte v).replies = s.replies := rfl
@[simp] theorem State.returnByte_draws (v : Byte) : (s.returnByte v).draws = s.draws := rfl

/-! ### `checkReady` -/

@[simp] theorem State.checkReady_cfg : (s.checkReady).cfg = s.cfg := rfl
@[simp] theorem State.checkReady_bank : (s.checkReady).bank = s.bank := rfl
@[simp] theorem State.checkReady_dsrSelected : (s.checkReady).dsrSelected = s.dsrSelected := rfl
@[simp] theorem State.checkReady_cruMode : (s.checkReady).cruMode = s.cruMode := rfl
@[simp] theorem State.checkReady_ptgen : (s.checkReady).ptgen = s.ptgen := rfl
@[simp] theorem State.checkReady_wait : (s.checkReady).wait = s.wait := rfl
@[simp] theorem State.checkReady_ready : (s.checkReady).ready = s.ready := rfl
@[simp] theorem State.checkReady_sram : (s.checkReady).sram = s.sram := rfl
@[simp] theorem State.checkReady_dram : (s.checkReady).dram = s.dram := rfl
@[simp] theorem State.checkReady_nv : (s.checkReady).nv = s.nv := rfl
@[simp] theorem State.checkReady_fault : (s.checkReady).fault = s.fault := rfl
@[simp] theorem State.checkReady_violation : (s.checkReady).violation = (s.violation || !s.ready) := rfl
@[simp] theorem State.checkReady_trace : (s.checkReady).trace = s.trace := rfl
@[simp] theorem State.checkReady_returned : (s.checkReady).returned = s.returned := rfl
@[simp] theorem State.checkReady_inbox : (s.checkReady).inbox = s.inbox := rfl
@[simp] theorem State.checkReady_replies : (s.checkReady).replies = s.replies := rfl
@[simp] theorem State.checkReady_draws : (s.checkReady).draws = s.draws := rfl

/-! ### `waitSet` -/

@[simp] theorem State.waitSet_cfg (c : Nat) : (s.waitSet c).cfg = s.cfg := rfl
@[simp] theorem State.waitSet_bank (c : Nat) : (s.waitSet c).bank = s.bank := rfl
@[simp] theorem State.waitSet_dsrSelected (c : Nat) : (s.waitSet c).dsrSelected = s.dsrSelected := rfl
@[simp] theorem State.waitSet_cruMode (c : Nat) : (s.waitSet c).cruMode = s.cruMode := rfl
@[simp] theorem State.waitSet_ptgen (c : Nat) : (s.waitSet c).ptgen = s.ptgen := rfl
@[simp] theorem State.waitSet_wait (c : Nat) : (s.waitSet c).wait = c := rfl
@[simp] theorem State.waitSet_ready (c : Nat) : (s.waitSet c).ready = false := rfl
@[simp] theorem State.waitSet_sram (c : Nat) : (s.waitSet c).sram = s.sram := rfl
@[simp] theorem State.waitSet_dram (c : Nat) : (s.waitSet c).dram = s.dram := rfl
@[simp] theorem State.waitSet_nv (c : Nat) : (s.waitSet c).nv = s.nv := rfl
@[simp] theorem State.waitSet_fault (c : Nat) : (s.waitSet c).fault = s.fault := rfl
@[simp] theorem State.waitSet_violation (c : Nat) : (s.waitSet c).violation = s.violation := rfl
@[simp] theorem State.waitSet_trace (c : Nat) : (s.waitSet c).trace = s.trace ++ [.notifyReady false] := rfl
@[simp] theorem State.waitSet_returned (c : Nat) : (s.waitSet c).returned = s.returned := rfl
@[simp] theorem State.waitSet_inbox (c : Nat) : (s.waitSet c).inbox = s.inbox := rfl
@[simp] theorem State.waitSet_replies (c : Nat) : (s.waitSet c).replies = s.replies := rfl
@[simp] theorem State.waitSet_draws (c : Nat) : (s.waitSet c).draws = s.draws := rfl

/-! ### `setBank` -/

@[simp] theorem State.setBank_cfg (i : Fin 16) (w : BankWord) : (s.setBank i w).cfg = s.cfg := rfl
@[simp] theorem State.setBank_bank (i : Fin 16) (w : BankWord) : (s.setBank i w).bank = s.bank.set i w := rfl
@[simp] theorem State.setBank_dsrSelected (i : Fin 16) (w : BankWord) : (s.setBank i w).dsrSelected = s.dsrSelected := rfl
@[simp] theorem State.setBank_cruMode (i : Fin 16) (w : BankWord) : (s.setBank i w).cruMode = s.cruMode := rfl
@[simp] theorem State.setBank_ptgen (i : Fin 16) (w : BankWord) : (s.setBank i w).ptgen = s.ptgen := rfl
@[simp] theorem State.setBank_wait (i : Fin 16) (w : BankWord) : (s.setBank i w).wait = s.wait := rfl
@[simp] theorem State.setBank_ready (i : Fin 16) (w : BankWord) : (s.setBank i w).ready = s.ready := rfl
@[simp] theorem State.setBank_sram (i : Fin 16) (w : BankWord) : (s.setBank i w).sram = s.sram := rfl
@[simp] theorem State.setBank_dram (i : Fin 16) (w : BankWord) : (s.setBank i w).dram = s.dram := rfl
@[simp] theorem State.setBank_nv (i : Fin 16) (w : BankWord) : (s.setBank i w).nv = s.nv := rfl
@[simp] theorem State.setBank_fault (i : Fin 16) (w : BankWord) : (s.setBank i w).fault = s.fault := rfl
@[simp] theorem State.setBank_violation (i : Fin 16) (w : BankWord) : (s.setBank i w).violation = s.violation := rfl
@[simp] theorem State.setBank_trace (i : Fin 16) (w : BankWord) : (s.setBank i w).trace = s.trace := rfl
@[simp] theorem State.setBank_returned (i : Fin 16) (w : BankWord) : (s.setBank i w).returned = s.returned := rfl
@[simp] theorem State.setBank_inbox (i : Fin 16) (w : BankWord) : (s.setBank i w).inbox = s.inbox := rfl
@[simp] theorem State.setBank_replies (i : Fin 16) (w : BankWord) : (s.setBank i w).replies = s.replies := rfl
@[simp] theorem State.setBank_draws (i : Fin 16) (w : BankWord) : (s.setBank i w).draws = s.draws := rfl

/-! ### `push` -/

@[simp] theorem State.push_cfg (c : Call) : (s.push c).cfg = s.cfg := rfl
@[simp] theorem State.push_bank (c : Call) : (s.push c).bank = s.bank := rfl
@[simp] theorem State.push_dsrSelected (c : Call) : (s.push c).dsrSelected = s.dsrSelected := rfl
@[simp] theorem State.push_cruMode (c : Call) : (s.push c).cruMode = s.cruMode := rfl
@[simp] theorem State.push_ptgen (c : Call) : (s.push c).ptgen = s.ptgen := rfl
@[simp] theorem State.push_wait (c : Call) : (s.push c).wait = s.wait := rfl
@[simp] theorem State.push_ready (c : Call) : (s.push c).ready = s.ready := rfl
@[simp] theorem State.push_sram (c : Call) : (s.push c).sram = s.sram := rfl
@[simp] theorem State.push_dram (c : Call) : (s.push c).dram = s.dram := rfl
@[simp] theorem State.push_nv (c : Call) : (s.push c).nv = s.nv := rfl
@[simp] theorem State.push_fault (c : Call) : (s.push c).fault = s.fault := rfl
@[simp] theorem State.push_violation (c : Call) : (s.push c).violation = s.violation := rfl
@[simp] theorem State.push_trace (c : Call) : (s.push c).trace = s.trace := rfl
@[simp] theorem State.push_returned (c : Call) : (s.push c).returned = s.returned := rfl
@[simp] theorem State.push_inbox (c : Call) : (s.push c).inbox = c :: s.inbox := rfl
@[simp] theorem State.push_replies (c : Call) : (s.push c).replies = s.replies := rfl
@[simp] theorem State.push_draws (c : Call) : (s.push c).draws = s.draws := rfl

/-! ### `resetOwned` -/

@[simp] theorem State.resetOwned_cfg : (s.resetOwned).cfg = s.cfg := rfl
@[simp] theorem State.resetOwned_bank : (s.resetOwned).bank = Vector.replicate 16 0#32 := rfl
@[simp] theorem State.resetOwned_dsrSelected : (s.resetOwned).dsrSelected = false := rfl
@[simp] theorem State.resetOwned_cruMode : (s.resetOwned).cruMode = true := rfl
@[simp] theorem State.resetOwned_ptgen : (s.resetOwned).ptgen = false := rfl
@[simp] theorem State.resetOwned_wait : (s.resetOwned).wait = 0 := rfl
@[simp] theorem State.resetOwned_ready : (s.resetOwned).ready = true := rfl
@[simp] theorem State.resetOwned_sram : (s.resetOwned).sram = s.sram := rfl
@[simp] theorem State.resetOwned_dram : (s.resetOwned).dram = s.dram := rfl
@[simp] theorem State.resetOwned_nv : (s.resetOwned).nv = s.nv := rfl
@[simp] theorem State.resetOwned_fault : (s.resetOwned).fault = s.fault := rfl
@[simp] theorem State.resetOwned_violation : (s.resetOwned).violation = s.violation := rfl
@[simp] theorem State.resetOwned_trace : (s.resetOwned).trace = s.trace ++ [.notifyReady true] := rfl
@[simp] theorem State.resetOwned_returned : (s.resetOwned).returned = s.returned := rfl
@[simp] theorem State.resetOwned_inbox : (s.resetOwned).inbox = s.inbox := rfl
@[simp] theorem State.resetOwned_replies : (s.resetOwned).replies = s.replies := rfl
@[simp] theorem State.resetOwned_draws : (s.resetOwned).draws = s.draws := rfl

/-! ### `served` -/

@[simp] theorem State.served_cfg (c : Nat) : (s.served c).cfg = s.cfg := rfl
@[simp] theorem State.served_bank (c : Nat) : (s.served c).bank = s.bank := rfl
@[simp] theorem State.served_dsrSelected (c : Nat) : (s.served c).dsrSelected = s.dsrSelected := rfl
@[simp] theorem State.served_cruMode (c : Nat) : (s.served c).cruMode = s.cruMode := rfl
@[simp] theorem State.served_ptgen (c : Nat) : (s.served c).ptgen = s.ptgen := rfl
@[simp] theorem State.served_wait (c : Nat) : (s.served c).wait = c := rfl
@[simp] theorem State.served_ready (c : Nat) : (s.served c).ready = false := rfl
@[simp] theorem State.served_sram (c : Nat) : (s.served c).sram = s.sram := rfl
@[simp] theorem State.served_dram (c : Nat) : (s.served c).dram = s.dram := rfl
@[simp] theorem State.served_nv (c : Nat) : (s.served c).nv = s.nv := rfl
@[simp] theorem State.served_fault (c : Nat) : (s.served c).fault = s.fault := rfl
@[simp] theorem State.served_violation (c : Nat) : (s.served c).violation = (s.violation || !s.ready) := rfl
@[simp] theorem State.served_trace (c : Nat) : (s.served c).trace = s.trace ++ [.notifyReady false] := rfl
@[simp] theorem State.served_returned (c : Nat) : (s.served c).returned = s.returned := rfl
@[simp] theorem State.served_inbox (c : Nat) : (s.served c).inbox = s.inbox := rfl
@[simp] theorem State.served_replies (c : Nat) : (s.served c).replies = s.replies := rfl
@[simp] theorem State.served_draws (c : Nat) : (s.served c).draws = s.draws := rfl

/-! ### `setArray`, `poke`, `array` -/

@[simp] theorem State.setArray_cfg (b : Buf) (m : Memory) : (s.setArray b m).cfg = s.cfg := by cases b <;> rfl
@[simp] theorem State.setArray_bank (b : Buf) (m : Memory) : (s.setArray b m).bank = s.bank := by cases b <;> rfl
@[simp] theorem State.setArray_dsrSelected (b : Buf) (m : Memory) : (s.setArray b m).dsrSelected = s.dsrSelected := by cases b <;> rfl
@[simp] theorem State.setArray_cruMode (b : Buf) (m : Memory) : (s.setArray b m).cruMode = s.cruMode := by cases b <;> rfl
@[simp] theorem State.setArray_ptgen (b : Buf) (m : Memory) : (s.setArray b m).ptgen = s.ptgen := by cases b <;> rfl
@[simp] theorem State.setArray_wait (b : Buf) (m : Memory) : (s.setArray b m).wait = s.wait := by cases b <;> rfl
@[simp] theorem State.setArray_ready (b : Buf) (m : Memory) : (s.setArray b m).ready = s.ready := by cases b <;> rfl
@[simp] theorem State.setArray_fault (b : Buf) (m : Memory) : (s.setArray b m).fault = s.fault := by cases b <;> rfl
@[simp] theorem State.setArray_violation (b : Buf) (m : Memory) : (s.setArray b m).violation = s.violation := by cases b <;> rfl
@[simp] theorem State.setArray_trace (b : Buf) (m : Memory) : (s.setArray b m).trace = s.trace := by cases b <;> rfl
@[simp] theorem State.setArray_returned (b : Buf) (m : Memory) : (s.setArray b m).returned = s.returned := by cases b <;> rfl
@[simp] theorem State.setArray_inbox (b : Buf) (m : Memory) : (s.setArray b m).inbox = s.inbox := by cases b <;> rfl
@[simp] theorem State.setArray_replies (b : Buf) (m : Memory) : (s.setArray b m).replies = s.replies := by cases b <;> rfl
@[simp] theorem State.setArray_draws (b : Buf) (m : Memory) : (s.setArray b m).draws = s.draws := by cases b <;> rfl
@[simp] theorem State.poke_cfg (b : Buf) (i : Nat) (v : Byte) : (s.poke b i v).cfg = s.cfg := by simp [State.poke]
@[simp] theorem State.poke_bank (b : Buf) (i : Nat) (v : Byte) : (s.poke b i v).bank = s.bank := by simp [State.poke]
@[simp] theorem State.poke_dsrSelected (b : Buf) (i : Nat) (v : Byte) : (s.poke b i v).dsrSelected = s.dsrSelected := by simp [State.poke]
@[simp] theorem State.poke_cruMode (b : Buf) (i : Nat) (v : Byte) : (s.poke b i v).cruMode = s.cruMode := by simp [State.poke]
@[simp] theorem State.poke_ptgen (b : Buf) (i : Nat) (v : Byte) : (s.poke b i v).ptgen = s.ptgen := by simp [State.poke]
@[simp] theorem State.poke_wait (b : Buf) (i : Nat) (v : Byte) : (s.poke b i v).wait = s.wait := by simp [State.poke]
@[simp] theorem State.poke_ready (b : Buf) (i : Nat) (v : Byte) : (s.poke b i v).ready = s.ready := by simp [State.poke]
@[simp] theorem State.poke_fault (b : Buf) (i : Nat) (v : Byte) : (s.poke b i v).fault = s.fault := by simp [State.poke]
@[simp] theorem State.poke_violation (b : Buf) (i : Nat) (v : Byte) : (s.poke b i v).violation = s.violation := by simp [State.poke]
@[simp] theorem State.poke_trace (b : Buf) (i : Nat) (v : Byte) : (s.poke b i v).trace = s.trace := by simp [State.poke]
@[simp] theorem State.poke_returned (b : Buf) (i : Nat) (v : Byte) : (s.poke b i v).returned = s.returned := by simp [State.poke]
@[simp] theorem State.poke_inbox (b : Buf) (i : Nat) (v : Byte) : (s.poke b i v).inbox = s.inbox := by simp [State.poke]
@[simp] theorem State.poke_replies (b : Buf) (i : Nat) (v : Byte) : (s.poke b i v).replies = s.replies := by simp [State.poke]
@[simp] theorem State.poke_draws (b : Buf) (i : Nat) (v : Byte) : (s.poke b i v).draws = s.draws := by simp [State.poke]

@[simp] theorem State.setArray_array_same (b : Buf) (m : Memory) : (s.setArray b m).array b = m := by
  cases b <;> rfl

theorem State.setArray_array_other {b b' : Buf} (h : b' ≠ b) (m : Memory) :
    (s.setArray b m).array b' = s.array b' := by
  cases b <;> cases b' <;> first | rfl | exact absurd rfl h

@[simp] theorem State.setArray_array_self (b : Buf) : s.setArray b (s.array b) = s := by cases b <;> rfl

@[simp] theorem State.setArray_setArray (b : Buf) (m m' : Memory) :
    (s.setArray b m).setArray b m' = s.setArray b m' := by cases b <;> rfl

@[simp] theorem State.emit_array (e : Event) (b' : Buf) : (s.emit e).array b' = s.array b' := by cases b' <;> rfl
@[simp] theorem State.raiseFault_array (r : Fault) (b' : Buf) : (s.raiseFault r).array b' = s.array b' := by cases b' <;> rfl
@[simp] theorem State.drawn_array (b' : Buf) : (s.drawn).array b' = s.array b' := by cases b' <;> rfl
@[simp] theorem State.returnByte_array (v : Byte) (b' : Buf) : (s.returnByte v).array b' = s.array b' := by cases b' <;> rfl
@[simp] theorem State.checkReady_array (b' : Buf) : (s.checkReady).array b' = s.array b' := by cases b' <;> rfl
@[simp] theorem State.waitSet_array (c : Nat) (b' : Buf) : (s.waitSet c).array b' = s.array b' := by cases b' <;> rfl
@[simp] theorem State.setBank_array (i : Fin 16) (w : BankWord) (b' : Buf) : (s.setBank i w).array b' = s.array b' := by cases b' <;> rfl
@[simp] theorem State.push_array (c : Call) (b' : Buf) : (s.push c).array b' = s.array b' := by cases b' <;> rfl
@[simp] theorem State.resetOwned_array (b' : Buf) : (s.resetOwned).array b' = s.array b' := by cases b' <;> rfl
@[simp] theorem State.served_array (c : Nat) (b' : Buf) : (s.served c).array b' = s.array b' := by cases b' <;> rfl

@[simp] theorem State.emit_peek (e : Event) (b' : Buf) (j : Nat) : (s.emit e).peek b' j = s.peek b' j := by simp [State.peek]
@[simp] theorem State.raiseFault_peek (r : Fault) (b' : Buf) (j : Nat) : (s.raiseFault r).peek b' j = s.peek b' j := by simp [State.peek]
@[simp] theorem State.drawn_peek (b' : Buf) (j : Nat) : (s.drawn).peek b' j = s.peek b' j := by simp [State.peek]
@[simp] theorem State.returnByte_peek (v : Byte) (b' : Buf) (j : Nat) : (s.returnByte v).peek b' j = s.peek b' j := by simp [State.peek]
@[simp] theorem State.checkReady_peek (b' : Buf) (j : Nat) : (s.checkReady).peek b' j = s.peek b' j := by simp [State.peek]
@[simp] theorem State.waitSet_peek (c : Nat) (b' : Buf) (j : Nat) : (s.waitSet c).peek b' j = s.peek b' j := by simp [State.peek]
@[simp] theorem State.setBank_peek (i : Fin 16) (w : BankWord) (b' : Buf) (j : Nat) : (s.setBank i w).peek b' j = s.peek b' j := by simp [State.peek]
@[simp] theorem State.push_peek (c : Call) (b' : Buf) (j : Nat) : (s.push c).peek b' j = s.peek b' j := by simp [State.peek]
@[simp] theorem State.resetOwned_peek (b' : Buf) (j : Nat) : (s.resetOwned).peek b' j = s.peek b' j := by simp [State.peek]
@[simp] theorem State.served_peek (c : Nat) (b' : Buf) (j : Nat) : (s.served c).peek b' j = s.peek b' j := by simp [State.peek]

@[simp] theorem State.served_eq (c : Nat) : s.checkReady.waitSet c = s.served c := rfl

end Sys2Proof.Machine
end

