-- ==== Sys2Proof/Laws/Ops.lean ====
section
/-!
SUPPORT. What each shared operation can do, once: the byte accesses, the device calls, the actions, the scans.
-/

namespace Sys2Proof.Machine

/-! ### Bytes -/

theorem State.array_wf {s : State} (hs : s.buffersOk) (b : Buf) : (s.array b).wf := by
  cases b
  · exact hs.1.1
  · exact hs.1.2.1
  · exact hs.1.2.2

theorem State.peek_poke_same {s : State} (hs : s.buffersOk) (b : Buf) (i : Nat) (v : Byte) :
    (s.poke b i v).peek b i = v := by
  simp only [State.peek, State.poke_cfg]
  simp only [State.poke, State.setArray_array_same]
  exact Memory.read_write_same (State.array_wf hs _) i v

theorem State.peek_poke_other (s : State) (b b' : Buf) {i j : Nat} (h : j ≠ i) (v : Byte) :
    (s.poke b i v).peek b' j = s.peek b' j := by
  simp only [State.peek, State.poke, State.setArray_cfg]
  by_cases hb : bufHome s.cfg b' = bufHome s.cfg b
  · rw [hb, State.setArray_array_same, Memory.read_write_other h]
  · rw [State.setArray_array_other s hb]

/-- The size of the array of that name. -/
def arraySize (cfg : Config) : Buf → Nat
  | .sram => cfg.sramSize
  | .dram => cfg.dramSize
  | .nv => cfg.nvSize

theorem bufSize_le_arraySize (cfg : Config) (b : Buf) : bufSize cfg b ≤ arraySize cfg (bufHome cfg b) := by
  cases b with
  | sram => exact Nat.le_refl _
  | dram => exact Nat.le_refl _
  | nv =>
    rcases h : cfg.nvAlias with _ | _ | _
    · simp [bufSize, bufHome, arraySize, h]
    · simp [bufSize, bufHome, arraySize, h]
    · simp [bufSize, bufHome, arraySize, h]

theorem State.setArray_buffersOk {s : State} (hs : s.buffersOk) (b : Buf) {m : Memory} (hm : m.wf)
    (hb : m.within (arraySize s.cfg b)) : (s.setArray b m).buffersOk := by
  obtain ⟨⟨h1, h2, h3⟩, b1, b2, b3⟩ := hs
  cases b
  · exact ⟨⟨hm, h2, h3⟩, hb, b2, b3⟩
  · exact ⟨⟨h1, hm, h3⟩, b1, hb, b3⟩
  · exact ⟨⟨h1, h2, hm⟩, b1, b2, hb⟩

theorem State.array_within {s : State} (hs : s.buffersOk) (b : Buf) : (s.array b).within (arraySize s.cfg b) := by
  cases b
  · exact hs.2.1
  · exact hs.2.2.1
  · exact hs.2.2.2

/-- A store within a buffer's size keeps every buffer in its form. -/
theorem State.poke_buffersOk {s : State} (hs : s.buffersOk) {b : Buf} {i : Nat} (hi : i < bufSize s.cfg b)
    (v : Byte) : (s.poke b i v).buffersOk :=
  State.setArray_buffersOk hs _ (Memory.write_wf (State.array_wf hs _) i v)
    (Memory.write_within (State.array_within hs _) (Nat.lt_of_lt_of_le hi (bufSize_le_arraySize _ _)) v)

/-! ### What an action can do -/

/-- What one action, or several, can do to the state: device events at the end of the trace, replies used, bytes
drawn, a fault record set, bytes of SRAM and DRAM stored. Everything else stays. -/
structure ActEffect (s t : State) : Prop where
  cfg         : t.cfg = s.cfg
  bank        : t.bank = s.bank
  dsrSelected : t.dsrSelected = s.dsrSelected
  cruMode     : t.cruMode = s.cruMode
  ptgen       : t.ptgen = s.ptgen
  wait        : t.wait = s.wait
  ready       : t.ready = s.ready
  nv          : t.nv = s.nv
  violation   : t.violation = s.violation
  returned    : t.returned = s.returned
  inbox       : t.inbox = s.inbox
  trace       : ∃ devs : List Event, (∀ e ∈ devs, isDeviceEvent e = true) ∧ t.trace = s.trace ++ devs
  fault       : ∀ r, s.fault = some r → t.fault = some r
  buffers     : s.buffersOk → t.buffersOk

theorem ActEffect.refl (s : State) : ActEffect s s where
  cfg := rfl
  bank := rfl
  dsrSelected := rfl
  cruMode := rfl
  ptgen := rfl
  wait := rfl
  ready := rfl
  nv := rfl
  violation := rfl
  returned := rfl
  inbox := rfl
  trace := ⟨[], by simp, by simp⟩
  fault := fun _ h => h
  buffers := fun h => h

theorem ActEffect.trans {s t u : State} (h : ActEffect s t) (h' : ActEffect t u) : ActEffect s u where
  cfg := h'.cfg.trans h.cfg
  bank := h'.bank.trans h.bank
  dsrSelected := h'.dsrSelected.trans h.dsrSelected
  cruMode := h'.cruMode.trans h.cruMode
  ptgen := h'.ptgen.trans h.ptgen
  wait := h'.wait.trans h.wait
  ready := h'.ready.trans h.ready
  nv := h'.nv.trans h.nv
  violation := h'.violation.trans h.violation
  returned := h'.returned.trans h.returned
  inbox := h'.inbox.trans h.inbox
  trace := by
    obtain ⟨d, hd, e⟩ := h.trace
    obtain ⟨d', hd', e'⟩ := h'.trace
    refine ⟨d ++ d', fun x hx => ?_, by rw [e', e, List.append_assoc]⟩
    rcases List.mem_append.mp hx with hx | hx
    · exact hd x hx
    · exact hd' x hx
  fault := fun r hr => h'.fault r (h.fault r hr)
  buffers := fun hs => h'.buffers (h.buffers hs)

/-- An operation with the effect of actions whose fault record says how it ended. -/
structure ActFlow {α : Type} (s : State) (x : Flow α) : Prop where
  effect  : ActEffect s x.state
  ok      : ∀ a t, x = .ok a t → t.fault = s.fault
  faulted : ∀ t, x = .faulted t → t.fault ≠ none

theorem ActFlow.pure {α : Type} (a : α) {s t : State} (h : ActEffect s t) (hf : t.fault = s.fault) :
    ActFlow s (.ok a t) where
  effect := h
  ok := fun _ _ h => by cases h; exact hf
  faulted := fun _ h => by cases h

theorem ActFlow.bind {α β : Type} {s : State} {x : Flow α} {f : α → State → Flow β} (hx : ActFlow s x)
    (hf : ∀ a t, x = .ok a t → ActFlow t (f a t)) : ActFlow s (x.bind f) := by
  cases x with
  | ok a t =>
    have h := hf a t rfl
    exact ⟨hx.effect.trans h.effect, fun b u hu => (h.ok b u hu).trans (hx.ok a t rfl), h.faulted⟩
  | faulted t => exact ⟨hx.effect, fun _ _ h => (nomatch h), fun u hu => by cases hu; exact hx.faulted t rfl⟩

theorem ActEffect.withDevices {s : State} {t : State} (devs : List Event)
    (hd : ∀ e ∈ devs, isDeviceEvent e = true) (replies : List DevReply) (draws : Nat) (fault : Option Fault)
    (hf : ∀ r, s.fault = some r → fault = some r)
    (ht : t = { s with trace := s.trace ++ devs, replies := replies, draws := draws, fault := fault }) :
    ActEffect s t := by
  subst ht
  exact ⟨rfl, rfl, rfl, rfl, rfl, rfl, rfl, rfl, rfl, rfl, rfl, ⟨devs, hd, rfl⟩, hf, fun h => h⟩

theorem raise_fault_sticky (s : State) (x : Fault) : ∀ r, s.fault = some r → (s.fault <|> some x) = some r := by
  intro r h
  rw [h]
  rfl

theorem raise_fault_set (s : State) (x : Fault) : (s.fault <|> some x) ≠ none := by
  cases s.fault <;> simp

/-- Raising a fault touches the record alone. -/
theorem raise_actFlow {α : Type} (r : Fault) {s t : State} (h : ActEffect s t) :
    ActFlow s (raise r t : Flow α) where
  effect := h.trans (ActEffect.withDevices [] (by simp) t.replies t.draws _ (raise_fault_sticky t r)
    (by simp [Flow.state, raise, State.raiseFault]))
  ok := fun _ _ h => (nomatch h)
  faulted := fun u hu => by cases hu; exact raise_fault_set t r

theorem drawn_actEffect (s : State) : ActEffect s s.drawn :=
  .withDevices [] (by simp) s.replies (s.draws + 1) s.fault (fun _ h => h) (by simp [State.drawn])

theorem deviceCall_actEffect (s : State) (e : Event) (he : isDeviceEvent e = true) (rest : List DevReply) :
    ActEffect s { s.emit e with replies := rest } :=
  .withDevices [e] (by simpa using he) rest s.draws s.fault (fun _ h => h) rfl

theorem memRead_actFlow (b : Buf) (i : Nat) (s : State) : ActFlow s (memRead b i s) := by
  unfold memRead
  split
  · exact .pure _ (.refl s) rfl
  · exact raise_actFlow _ (.refl s)

theorem romRead_actFlow (i : Nat) (s : State) : ActFlow s (romRead i s) := by
  unfold romRead
  split
  · exact .pure _ (.refl s) rfl
  · exact raise_actFlow _ (.refl s)

/-- A store to SRAM or DRAM: the NV array stays. -/
theorem memWrite_actFlow {b : Buf} (hb : b ≠ .nv) (i : Nat) (v : Byte) (s : State) :
    ActFlow s (memWrite b i v s) := by
  unfold memWrite
  split
  case isTrue hi =>
    refine .pure _ ⟨by simp, by simp, by simp, by simp, by simp, by simp, by simp, ?_, by simp, by simp, by simp,
      ⟨[], by simp, by simp⟩, fun r h => by simpa using h, fun hs => State.poke_buffersOk hs hi v⟩ (by simp)
    cases b
    · rfl
    · rfl
    · exact absurd rfl hb
  case isFalse => exact raise_actFlow _ (.refl s)

theorem deviceRead_actFlow (dev : String) (a : PAddr) (s : State) : ActFlow s (deviceRead dev a s) := by
  unfold deviceRead draw
  split
  · exact .pure _ (((deviceCall_actEffect s _ rfl s.replies)).trans (drawn_actEffect _)) rfl
  · exact .pure _ (deviceCall_actEffect s _ rfl _) rfl
  · exact .pure _ ((deviceCall_actEffect s _ rfl _).trans (drawn_actEffect _)) rfl
  · exact raise_actFlow _ (deviceCall_actEffect s _ rfl _)

theorem deviceWrite_actFlow (dev : String) (a : PAddr) (d : Byte) (s : State) :
    ActFlow s (deviceWrite dev a d s) := by
  unfold deviceWrite
  split
  · exact .pure _ (deviceCall_actEffect s _ rfl s.replies) rfl
  · exact .pure _ (deviceCall_actEffect s _ rfl _) rfl
  · exact raise_actFlow _ (deviceCall_actEffect s _ rfl _)

theorem actRead_actFlow (a : PAddr) (e : Entry) (s : State) : ActFlow s (actRead a e s) := by
  unfold actRead
  split
  · exact memRead_actFlow _ _ s
  · exact memRead_actFlow _ _ s
  · exact romRead_actFlow _ s
  · exact romRead_actFlow _ s
  · exact romRead_actFlow _ s
  · exact .pure _ (drawn_actEffect s) rfl
  · exact deviceRead_actFlow _ a s

theorem actWrite_actFlow (a : PAddr) (d : Byte) (e : Entry) (s : State) : ActFlow s (actWrite a d e s) := by
  unfold actWrite
  split
  · exact memWrite_actFlow (by decide) _ d s
  · exact memWrite_actFlow (by decide) _ d s
  · exact .pure _ (.refl s) rfl
  · exact .pure _ (.refl s) rfl
  · exact .pure _ (.refl s) rfl
  · exact .pure _ (.refl s) rfl
  · exact deviceWrite_actFlow _ a d s

/-! ### The scan -/

/-- The scan does what its actions do. -/
theorem scan_actFlow {β : Type} {hit : Entry → Bool} {act : Entry → State → Flow β}
    (hact : ∀ e s, ActFlow s (act e s)) (L : List Entry) (last : Option β) (s : State) :
    ActFlow s (scan hit act L last s) := by
  induction L generalizing last s with
  | nil => exact .pure _ (.refl s) rfl
  | cons e es ih =>
    unfold scan
    split
    · refine (hact e s).bind fun a t _ => ?_
      split
      · exact .pure _ (.refl t) rfl
      · exact ih _ t
    · exact ih last s

/-- A property of states that every action keeps, the scan keeps. -/
theorem scan_keeps {β : Type} {hit : Entry → Bool} {act : Entry → State → Flow β} {P : State → Prop}
    {L : List Entry} (hact : ∀ e ∈ L, hit e = true → ∀ s, P s → P (act e s).state) (last : Option β) {s : State}
    (hs : P s) : P (scan hit act L last s).state := by
  induction L generalizing last s with
  | nil => exact hs
  | cons e es ih =>
    have ih' : ∀ last {s}, P s → P (scan hit act es last s).state := fun last _ hs =>
      ih (fun e' he' => hact e' (List.mem_cons_of_mem _ he')) last hs
    unfold scan
    split
    case isTrue hhit =>
      have h := hact e List.mem_cons_self hhit s hs
      cases hx : act e s with
      | faulted t => simpa [Flow.bind, Flow.state, hx] using h
      | ok a t =>
        simp only [Flow.bind]
        split
        · simpa [Flow.state, hx] using h
        · exact ih' _ (by simpa [Flow.state, hx] using h)
    case isFalse => exact ih' last hs

theorem readLogical_actFlow (la : LAddr) (s : State) : ActFlow s (readLogical la s) :=
  scan_actFlow (actRead_actFlow _) _ _ s

theorem writeLogical_actFlow (la : LAddr) (d : Byte) (s : State) : ActFlow s (writeLogical la d s) :=
  scan_actFlow (actWrite_actFlow _ d) _ _ s

theorem readPhysical_actFlow (la : LAddr) (s : State) : ActFlow s (readPhysical la s) :=
  scan_actFlow (actRead_actFlow _) _ _ s

theorem writePhysical_actFlow (la : LAddr) (d : Byte) (s : State) : ActFlow s (writePhysical la d s) :=
  scan_actFlow (actWrite_actFlow _ d) _ _ s

/-- A read stores nothing. -/
theorem actRead_arrays (a : PAddr) (e : Entry) (s : State) (b : Buf) :
    (actRead a e s).state.array b = s.array b := by
  unfold actRead
  split <;> (try unfold memRead) <;> (try unfold romRead) <;> (try unfold deviceRead) <;> (try unfold draw)
    <;> (try split) <;> cases b <;> rfl

end Sys2Proof.Machine
end

