-- ==== Sys2Proof/Laws/Access.lean ====
section
/-!
SUPPORT. What a bus access can do, once: its work, and then either a model fault, or the wait and at most one
returned byte.
-/

namespace Sys2Proof.Machine

/-- What the work of a bus access can do. It differs from ActEffect in that a bank command may write the bank
table and any buffer. -/
structure WorkEffect (s t : State) : Prop where
  cfg         : t.cfg = s.cfg
  dsrSelected : t.dsrSelected = s.dsrSelected
  cruMode     : t.cruMode = s.cruMode
  ptgen       : t.ptgen = s.ptgen
  wait        : t.wait = s.wait
  ready       : t.ready = s.ready
  violation   : t.violation = s.violation
  returned    : t.returned = s.returned
  inbox       : t.inbox = s.inbox
  trace       : ∃ devs : List Event, (∀ e ∈ devs, isDeviceEvent e = true) ∧ t.trace = s.trace ++ devs
  fault       : ∀ r, s.fault = some r → t.fault = some r
  buffers     : s.buffersOk → t.buffersOk

theorem ActEffect.work {s t : State} (h : ActEffect s t) : WorkEffect s t :=
  ⟨h.cfg, h.dsrSelected, h.cruMode, h.ptgen, h.wait, h.ready, h.violation, h.returned, h.inbox, h.trace, h.fault,
    h.buffers⟩

theorem WorkEffect.refl (s : State) : WorkEffect s s := (ActEffect.refl s).work

theorem WorkEffect.trans {s t u : State} (h : WorkEffect s t) (h' : WorkEffect t u) : WorkEffect s u where
  cfg := h'.cfg.trans h.cfg
  dsrSelected := h'.dsrSelected.trans h.dsrSelected
  cruMode := h'.cruMode.trans h.cruMode
  ptgen := h'.ptgen.trans h.ptgen
  wait := h'.wait.trans h.wait
  ready := h'.ready.trans h.ready
  violation := h'.violation.trans h.violation
  returned := h'.returned.trans h.returned
  inbox := h'.inbox.trans h.inbox
  trace := by
    obtain ⟨d, hd, e⟩ := h.trace
    obtain ⟨d', hd', e'⟩ := h'.trace
    refine ⟨d ++ d', fun x hx => ?_, by rw [e', e, List.append_assoc]⟩
    rcases List.mem_append.mp hx with hx | hx
    · exact hd x hx
    · exact hd' x hx
  fault := fun r hr => h'.fault r (h.fault r hr)
  buffers := fun hs => h'.buffers (h.buffers hs)

/-- An operation with the effect of an access's work whose fault record says how it ended. -/
structure WorkFlow {α : Type} (s : State) (x : Flow α) : Prop where
  effect  : WorkEffect s x.state
  ok      : ∀ a t, x = .ok a t → t.fault = s.fault
  faulted : ∀ t, x = .faulted t → t.fault ≠ none

theorem ActFlow.work {α : Type} {s : State} {x : Flow α} (h : ActFlow s x) : WorkFlow s x :=
  ⟨h.effect.work, h.ok, h.faulted⟩

theorem WorkFlow.bind {α β : Type} {s : State} {x : Flow α} {f : α → State → Flow β} (hx : WorkFlow s x)
    (hf : ∀ a t, x = .ok a t → WorkFlow t (f a t)) : WorkFlow s (x.bind f) := by
  cases x with
  | ok a t =>
    have h := hf a t rfl
    exact ⟨hx.effect.trans h.effect, fun b u hu => (h.ok b u hu).trans (hx.ok a t rfl), h.faulted⟩
  | faulted t => exact ⟨hx.effect, fun _ _ h => (nomatch h), fun u hu => by cases hu; exact hx.faulted t rfl⟩

theorem WorkFlow.pure {α : Type} (a : α) {s t : State} (h : WorkEffect s t) (hf : t.fault = s.fault) :
    WorkFlow s (.ok a t) :=
  ⟨h, fun _ _ h => by cases h; exact hf, fun _ h => (nomatch h)⟩

theorem setBank_workEffect (s : State) (i : Fin 16) (w : BankWord) : WorkEffect s (s.setBank i w) :=
  ⟨rfl, rfl, rfl, rfl, rfl, rfl, rfl, rfl, rfl, ⟨[], by simp, by simp⟩, fun _ h => h, fun h => h⟩

theorem memWrite_workFlow (b : Buf) (i : Nat) (v : Byte) (s : State) : WorkFlow s (memWrite b i v s) := by
  unfold memWrite
  split
  case isTrue hi =>
    exact .pure _ ⟨by simp, by simp, by simp, by simp, by simp, by simp, by simp, by simp, by simp,
      ⟨[], by simp, by simp⟩, fun r h => by simpa using h, fun hs => State.poke_buffersOk hs hi v⟩ (by simp)
  case isFalse => exact (raise_actFlow _ (.refl s)).work

theorem readNvWord_actFlow (o : Nat) (s : State) : ActFlow s (readNvWord o s) :=
  (memRead_actFlow _ _ s).bind fun _ t _ => (memRead_actFlow _ _ t).bind fun _ t _ =>
    (memRead_actFlow _ _ t).bind fun _ t _ => (memRead_actFlow _ _ t).bind fun _ t _ => .pure _ (.refl t) rfl

theorem writeNvWord_workFlow (o : Nat) (w : BankWord) (s : State) : WorkFlow s (writeNvWord o w s) :=
  (memWrite_workFlow _ _ _ s).bind fun _ t _ => (memWrite_workFlow _ _ _ t).bind fun _ t _ =>
    (memWrite_workFlow _ _ _ t).bind fun _ t _ => memWrite_workFlow _ _ _ t

theorem loadEntries_workFlow (k : Slot) (is : List (Fin 16)) (s : State) : WorkFlow s (loadEntries k is s) := by
  induction is generalizing s with
  | nil => exact .pure _ (.refl s) rfl
  | cons i is ih =>
    refine (readNvWord_actFlow _ s).work.bind fun w t _ => ?_
    have h := ih (t.setBank i w)
    exact ⟨(setBank_workEffect t i w).trans h.effect, h.ok, h.faulted⟩

theorem storeEntries_workFlow (k : Slot) (is : List (Fin 16)) (s : State) : WorkFlow s (storeEntries k is s) := by
  induction is generalizing s with
  | nil => exact .pure _ (.refl s) rfl
  | cons i is ih => exact (writeNvWord_workFlow _ _ s).bind fun _ t _ => ih t

/-- A store of the bank table leaves the bank table. -/
theorem storeEntries_bank (k : Slot) (is : List (Fin 16)) (s : State) : (storeEntries k is s).state.bank = s.bank := by
  have hw : ∀ (o : Nat) (v : Byte) (u : State), (memWrite .nv o v u).state.bank = u.bank := by
    intro o v u
    unfold memWrite
    split
    · simp [Flow.state]
    · rfl
  have hb : ∀ {α β : Type} (x : Flow α) (f : α → State → Flow β) (b : Vector BankWord 16),
      x.state.bank = b → (∀ a t, t.bank = b → (f a t).state.bank = b) → (x.bind f).state.bank = b := by
    intro α β x f b hx hf
    cases x with
    | ok a t => exact hf a t hx
    | faulted t => exact hx
  have hword : ∀ (o : Nat) (w : BankWord) (u : State), (writeNvWord o w u).state.bank = u.bank := fun o w u =>
    hb _ _ _ (hw _ _ u) fun _ t ht => hb _ _ _ ((hw _ _ t).trans ht) fun _ t ht =>
      hb _ _ _ ((hw _ _ t).trans ht) fun _ t ht => (hw _ _ t).trans ht
  induction is generalizing s with
  | nil => rfl
  | cons i is ih => exact hb _ _ _ (hword _ _ s) fun _ t ht => (ih t).trans ht

/-- What a bus access leaves: `mid` after its work, and then the fault's end, or the wait `c` with at most one
returned byte. -/
structure AccessResult (s t : State) : Prop where
  result : ∃ mid : State, WorkEffect s.checkReady mid ∧
    ((t = mid ∧ t.fault ≠ none) ∨
     (mid.fault = s.fault ∧ ∃ (c n : Nat) (vs : List Byte),
        (c = s.cfg.waitLogical ∨ c = s.cfg.waitPhysical) ∧ vs.length ≤ 1 ∧
        t = { mid.waitSet c with draws := n, returned := mid.returned ++ vs }))

theorem busRead_result (la : LAddr) (s : State) : AccessResult s (busRead la s) := by
  unfold busRead
  have hL := readLogical_actFlow la s.checkReady
  split
  case h_1 t h =>
    rw [h] at hL
    exact ⟨t, hL.effect.work, .inl ⟨rfl, hL.faulted t rfl⟩⟩
  case h_2 v t h =>
    rw [h] at hL
    exact ⟨t, hL.effect.work, .inr ⟨hL.ok _ t rfl, t.cfg.waitLogical, t.draws, [v],
      .inl (by rw [show t.cfg = s.checkReady.cfg from hL.effect.cfg]; rfl), by simp, rfl⟩⟩
  case h_3 t h =>
    rw [h] at hL
    have hc : t.cfg = s.cfg := hL.effect.cfg
    unfold readFallback
    have hP := readPhysical_actFlow la t
    split
    case h_1 u h' =>
      rw [h'] at hP
      exact ⟨u, (hL.effect.trans hP.effect).work, .inl ⟨rfl, hP.faulted u rfl⟩⟩
    case h_2 v u h' =>
      rw [h'] at hP
      have hu : u.cfg = t.cfg := hP.effect.cfg
      exact ⟨u, (hL.effect.trans hP.effect).work, .inr ⟨(hP.ok _ u rfl).trans (hL.ok _ t rfl),
        u.cfg.waitPhysical, u.draws, [v], .inr (by rw [hu, hc]), by simp, rfl⟩⟩
    case h_3 u h' =>
      rw [h'] at hP
      have hu : u.cfg = t.cfg := hP.effect.cfg
      exact ⟨u, (hL.effect.trans hP.effect).work, .inr ⟨(hP.ok _ u rfl).trans (hL.ok _ t rfl),
        u.cfg.waitPhysical, u.draws + 1, [Config.freeByte u.draws], .inr (by rw [hu, hc]), by simp, rfl⟩⟩

theorem busWrite_result (la : LAddr) (d : Byte) (s : State) : AccessResult s (busWrite la d s) := by
  have done : ∀ (u : State) (c : Nat), u.waitSet c =
      { u.waitSet c with draws := u.draws, returned := u.returned ++ [] } := fun u c => by
    simp [State.waitSet]
  unfold busWrite
  have hL := writeLogical_actFlow la d s.checkReady
  split
  case h_1 t h =>
    rw [h] at hL
    exact ⟨t, hL.effect.work, .inl ⟨rfl, hL.faulted t rfl⟩⟩
  case h_2 t h =>
    rw [h] at hL
    exact ⟨t, hL.effect.work, .inr ⟨hL.ok _ t rfl, t.cfg.waitLogical, t.draws, [],
      .inl (by rw [show t.cfg = s.checkReady.cfg from hL.effect.cfg]; rfl), by simp, done _ _⟩⟩
  case h_3 t h =>
    rw [h] at hL
    have hc : t.cfg = s.cfg := hL.effect.cfg
    unfold writeFallback
    have hP := writePhysical_actFlow la d t
    split
    case h_1 u h' =>
      rw [h'] at hP
      exact ⟨u, (hL.effect.trans hP.effect).work, .inl ⟨rfl, hP.faulted u rfl⟩⟩
    case h_2 v u h' =>
      rw [h'] at hP
      have hu : u.cfg = t.cfg := hP.effect.cfg
      exact ⟨u, (hL.effect.trans hP.effect).work, .inr ⟨(hP.ok _ u rfl).trans (hL.ok _ t rfl),
        u.cfg.waitPhysical, u.draws, [], .inr (by rw [hu, hc]), by simp, done _ _⟩⟩

theorem bankCommand_result {work : State → Flow Unit} (hw : ∀ s, WorkFlow s (work s)) (s : State) :
    AccessResult s (bankCommand work s) := by
  unfold bankCommand
  have h := hw s.checkReady
  split
  case h_1 t ht =>
    rw [ht] at h
    exact ⟨t, h.effect, .inl ⟨rfl, h.faulted t rfl⟩⟩
  case h_2 t ht =>
    rw [ht] at h
    exact ⟨t, h.effect, .inr ⟨h.ok _ t rfl, t.cfg.waitLogical, t.draws, [],
      .inl (by rw [show t.cfg = s.checkReady.cfg from h.effect.cfg]; rfl), by simp, by simp [State.waitSet]⟩⟩

/-- Every bus access, whatever its row, has this shape. -/
theorem access_result {i : Instr} (hi : isAccess i = true) {s t : State} (h : exec i s = .next t) :
    AccessResult s t := by
  cases i <;> simp only [isAccess, reduceCtorEq] at hi
  case rd la =>
    cases h
    exact busRead_result la s
  case wr la d =>
    cases h
    exact busWrite_result la d s
  case bload la k =>
    cases h
    exact bankCommand_result (loadEntries_workFlow k _) s
  case bstore la k =>
    cases h
    exact bankCommand_result (storeEntries_workFlow k _) s
  case bcmdIgn la d =>
    cases h
    exact bankCommand_result (fun s => .pure _ (.refl s) rfl) s

end Sys2Proof.Machine
end

