-- ==== Sys2Proof/Laws/BankCmd.lean ====
section
/-!
SUPPORT. What the loops of BLOAD and BSTORE do where the nonvolatile store holds the slot, what they do where it
lacks a byte of it, and the byte order's round trip.
-/

namespace Sys2Proof.Machine

/-- The four big-endian bytes of a word give the word. -/
theorem bigEndian_bigEndianByte (w : BankWord) :
    bigEndian (bigEndianByte w 0) (bigEndianByte w 1) (bigEndianByte w 2) (bigEndianByte w 3) = w := by
  unfold bigEndian bigEndianByte
  ext i hi
  simp only [BitVec.getElem_or, BitVec.getElem_shiftLeft, BitVec.getLsbD_extractLsb', BitVec.getElem_setWidth]
  by_cases h1 : i < 8
  · simp [h1, show i < 24 by omega, show i < 16 by omega, BitVec.getLsbD_eq_getElem hi]
  · by_cases h2 : i < 16
    · simp [h1, h2, show i < 24 by omega, show i - 8 < 8 by omega, show 8 + (i - 8) = i by omega,
        BitVec.getLsbD_eq_getElem hi]
    · by_cases h3 : i < 24
      · simp [h1, h2, h3, show i - 16 < 8 by omega, show 16 + (i - 16) = i by omega, show ¬i - 8 < 8 by omega,
          BitVec.getLsbD_eq_getElem hi]
      · simp [h1, h2, h3, show i - 24 < 8 by omega, show 24 + (i - 24) = i by omega, show ¬i - 8 < 8 by omega,
          show ¬i - 16 < 8 by omega, BitVec.getLsbD_eq_getElem hi]

/-- An entry lies within its slot. -/
theorem slotOffset_lt {k : Slot} {n : Nat} (h : 64 * k.toNat + 64 ≤ n) (i : Fin 16) : slotOffset k i + 3 < n := by
  have := i.isLt
  unfold slotOffset
  omega

/-- Later entries lie higher in the slot. -/
theorem slotOffset_mono (k : Slot) {i j : Fin 16} (h : i < j) : slotOffset k i + 4 ≤ slotOffset k j := by
  have : i.val < j.val := h
  unfold slotOffset
  omega

/-! ### Loading -/

theorem readNvWord_ok {s : State} {o : Nat} (h : o + 3 < bufSize s.cfg .nv) :
    readNvWord o s =
      .ok (bigEndian (s.peek .nv o) (s.peek .nv (o + 1)) (s.peek .nv (o + 2)) (s.peek .nv (o + 3))) s := by
  unfold readNvWord memRead
  rw [if_pos (by omega)]
  simp only [Flow.bind]
  rw [if_pos (by omega)]
  simp only
  rw [if_pos (by omega)]
  simp only
  rw [if_pos (by omega)]

/-- The loading loop replaces the listed entries by the slot's words, and nothing else. -/
theorem loadEntries_ok (k : Slot) (is : List (Fin 16)) (s : State)
    (h : ∀ i ∈ is, slotOffset k i + 3 < bufSize s.cfg .nv) :
    ∃ b : Vector BankWord 16, loadEntries k is s = .ok () { s with bank := b } ∧
      ∀ j : Fin 16, b[j] = if j ∈ is then
        bigEndian (s.peek .nv (slotOffset k j)) (s.peek .nv (slotOffset k j + 1))
          (s.peek .nv (slotOffset k j + 2)) (s.peek .nv (slotOffset k j + 3)) else s.bank[j] := by
  induction is generalizing s with
  | nil => exact ⟨s.bank, rfl, by simp⟩
  | cons i is ih =>
    simp only [loadEntries]
    rw [readNvWord_ok (h i List.mem_cons_self)]
    simp only [Flow.bind]
    generalize hw : bigEndian (s.peek .nv (slotOffset k i)) (s.peek .nv (slotOffset k i + 1))
          (s.peek .nv (slotOffset k i + 2)) (s.peek .nv (slotOffset k i + 3)) = w
    obtain ⟨b, e, hb⟩ := ih (s.setBank i w) fun i' hi' => h i' (List.mem_cons_of_mem _ hi')
    refine ⟨b, e, fun j => ?_⟩
    rw [hb j]
    by_cases hj : j ∈ is
    · simp [hj]
    · by_cases hij : j = i
      · subst hij
        simp [hj, hw]
      · rw [if_neg hj, if_neg (by simp [hj, hij])]
        exact Vector.getElem_set_ne i.isLt j.isLt (fun h => hij (Fin.ext h.symm))

theorem readNvWord_faulted {s : State} {o : Nat} (h : bufSize s.cfg .nv ≤ o + 3) :
    readNvWord o s = .faulted (s.raiseFault .indexOutOfRange) := by
  have h3 : ¬o + 3 < bufSize s.cfg .nv := by omega
  by_cases h0 : o < bufSize s.cfg .nv <;> by_cases h1 : o + 1 < bufSize s.cfg .nv <;>
    by_cases h2 : o + 2 < bufSize s.cfg .nv <;> simp [readNvWord, memRead, Flow.bind, raise, h0, h1, h2, h3]

/-- A loading loop that meets an entry past the end of the store loads the entries before it, and faults. -/
theorem loadEntries_faulted (k : Slot) (is : List (Fin 16)) (his : is.Pairwise (· < ·)) (s : State)
    (h : ∃ i ∈ is, bufSize s.cfg .nv ≤ slotOffset k i + 3) :
    ∃ b : Vector BankWord 16,
      loadEntries k is s = .faulted (State.raiseFault { s with bank := b } .indexOutOfRange) ∧
      ∀ j : Fin 16, b[j] = if j ∈ is ∧ slotOffset k j + 3 < bufSize s.cfg .nv then
        bigEndian (s.peek .nv (slotOffset k j)) (s.peek .nv (slotOffset k j + 1))
          (s.peek .nv (slotOffset k j + 2)) (s.peek .nv (slotOffset k j + 3)) else s.bank[j] := by
  induction is generalizing s with
  | nil => obtain ⟨_, hi, _⟩ := h; cases hi
  | cons i is ih =>
    rw [List.pairwise_cons] at his
    simp only [loadEntries]
    by_cases hi : slotOffset k i + 3 < bufSize s.cfg .nv
    · rw [readNvWord_ok hi]
      simp only [Flow.bind]
      generalize hw : bigEndian (s.peek .nv (slotOffset k i)) (s.peek .nv (slotOffset k i + 1))
          (s.peek .nv (slotOffset k i + 2)) (s.peek .nv (slotOffset k i + 3)) = w
      obtain ⟨b, e, hb⟩ := ih his.2 (s.setBank i w) (by
        obtain ⟨i', hi', hn⟩ := h
        rcases List.mem_cons.mp hi' with rfl | hi'
        · omega
        · exact ⟨i', hi', hn⟩)
      refine ⟨b, e, fun j => ?_⟩
      rw [hb j]
      by_cases hij : j = i
      · subst hij
        rw [if_neg fun hj => absurd (his.1 j hj.1) (Fin.lt_irrefl j), if_pos ⟨List.mem_cons_self, hi⟩, hw]
        exact Vector.getElem_set_self j.isLt
      · have hset : (s.setBank i w).bank[j] = s.bank[j] :=
          Vector.getElem_set_ne i.isLt j.isLt fun h => hij (Fin.ext h.symm)
        simp only [List.mem_cons, hij, false_or, hset]
        rfl
    · rw [readNvWord_faulted (by omega)]
      refine ⟨s.bank, rfl, fun j => ?_⟩
      rw [if_neg]
      rintro ⟨hj, hlt⟩
      rcases List.mem_cons.mp hj with rfl | hj
      · exact hi hlt
      · have := slotOffset_mono k (his.1 j hj)
        omega

/-! ### Storing -/

theorem memWrite_ok {s : State} {b : Buf} {i : Nat} {v : Byte} (h : i < bufSize s.cfg b) :
    memWrite b i v s = .ok () (s.poke b i v) := by
  unfold memWrite
  rw [if_pos h]

/-- The four bytes of a word, put at offset `o` of the store. -/
def State.pokeWord (s : State) (o : Nat) (w : BankWord) : State :=
  (((s.poke .nv o (bigEndianByte w 0)).poke .nv (o + 1) (bigEndianByte w 1)).poke .nv (o + 2)
    (bigEndianByte w 2)).poke .nv (o + 3) (bigEndianByte w 3)

theorem writeNvWord_ok {s : State} {o : Nat} (w : BankWord) (h : o + 3 < bufSize s.cfg .nv) :
    writeNvWord o w s = .ok () (s.pokeWord o w) := by
  unfold writeNvWord
  rw [memWrite_ok (by omega)]
  simp only [Flow.bind]
  rw [memWrite_ok (by simp only [State.poke_cfg]; omega)]
  simp only
  rw [memWrite_ok (by simp only [State.poke_cfg]; omega)]
  simp only
  rw [memWrite_ok (by simp only [State.poke_cfg]; omega)]
  rfl

theorem State.pokeWord_buffersOk {s : State} (hs : s.buffersOk) {o : Nat} (w : BankWord)
    (h : o + 3 < bufSize s.cfg .nv) : (s.pokeWord o w).buffersOk :=
  State.poke_buffersOk (State.poke_buffersOk (State.poke_buffersOk (State.poke_buffersOk hs (by omega) _)
    (by simp only [State.poke_cfg]; omega) _) (by simp only [State.poke_cfg]; omega) _)
    (by simp only [State.poke_cfg]; omega) _

/-- A stored word touches one array. -/
theorem State.pokeWord_eq (s : State) (o : Nat) (w : BankWord) :
    ∃ m : Memory, s.pokeWord o w = s.setArray (bufHome s.cfg .nv) m := by
  have step : ∀ (m : Memory) (i : Nat) (v : Byte), ∃ m',
      (s.setArray (bufHome s.cfg .nv) m).poke .nv i v = s.setArray (bufHome s.cfg .nv) m' := fun m i v =>
    ⟨m.write i v, by simp [State.poke]⟩
  obtain ⟨m0, h0⟩ : ∃ m, s.poke .nv o (bigEndianByte w 0) = s.setArray (bufHome s.cfg .nv) m := ⟨_, rfl⟩
  obtain ⟨m1, h1⟩ := step m0 (o + 1) (bigEndianByte w 1)
  obtain ⟨m2, h2⟩ := step m1 (o + 2) (bigEndianByte w 2)
  obtain ⟨m3, h3⟩ := step m2 (o + 3) (bigEndianByte w 3)
  exact ⟨m3, by rw [State.pokeWord, h0, h1, h2, h3]⟩

theorem State.peek_pokeWord_same {s : State} (hs : s.buffersOk) {o : Nat} (w : BankWord)
    (h : o + 3 < bufSize s.cfg .nv) {j : Nat} (hj : j < 4) :
    (s.pokeWord o w).peek .nv (o + j) = bigEndianByte w j := by
  have s0 : (s.poke .nv o (bigEndianByte w 0)).buffersOk := State.poke_buffersOk hs (by omega) _
  have s1 : ((s.poke .nv o (bigEndianByte w 0)).poke .nv (o + 1) (bigEndianByte w 1)).buffersOk :=
    State.poke_buffersOk s0 (by simp only [State.poke_cfg]; omega) _
  have s2 : (((s.poke .nv o (bigEndianByte w 0)).poke .nv (o + 1) (bigEndianByte w 1)).poke .nv (o + 2)
      (bigEndianByte w 2)).buffersOk := State.poke_buffersOk s1 (by simp only [State.poke_cfg]; omega) _
  unfold State.pokeWord
  obtain rfl | rfl | rfl | rfl : j = 0 ∨ j = 1 ∨ j = 2 ∨ j = 3 := by omega
  · rw [State.peek_poke_other _ _ _ (by omega), State.peek_poke_other _ _ _ (by omega),
      State.peek_poke_other _ _ _ (by omega)]
    exact State.peek_poke_same hs _ _ _
  · rw [State.peek_poke_other _ _ _ (by omega), State.peek_poke_other _ _ _ (by omega)]
    exact State.peek_poke_same s0 _ _ _
  · rw [State.peek_poke_other _ _ _ (by omega)]
    exact State.peek_poke_same s1 _ _ _
  · exact State.peek_poke_same s2 _ _ _

theorem State.peek_pokeWord_other (s : State) {o n : Nat} (w : BankWord) (b : Buf) (h : ∀ j < 4, n ≠ o + j) :
    (s.pokeWord o w).peek b n = s.peek b n := by
  unfold State.pokeWord
  rw [State.peek_poke_other _ _ _ (h 3 (by omega)), State.peek_poke_other _ _ _ (h 2 (by omega)),
    State.peek_poke_other _ _ _ (h 1 (by omega)),
    State.peek_poke_other _ _ _ (i := o) (h 0 (by omega))]

/-- The storing loop puts the listed entries' bytes into the slot, in one array, and changes no other byte. -/
theorem storeEntries_ok (k : Slot) (is : List (Fin 16)) (hnd : is.Nodup) (s : State) (hs : s.buffersOk)
    (h : ∀ i ∈ is, slotOffset k i + 3 < bufSize s.cfg .nv) :
    ∃ t : State, storeEntries k is s = .ok () t ∧ t.buffersOk ∧
      (∃ m : Memory, t = s.setArray (bufHome s.cfg .nv) m) ∧
      (∀ i ∈ is, ∀ j < 4, t.peek .nv (slotOffset k i + j) = bigEndianByte s.bank[i] j) ∧
      ∀ n, (∀ i ∈ is, ∀ j < 4, n ≠ slotOffset k i + j) → t.peek .nv n = s.peek .nv n := by
  induction is generalizing s with
  | nil => exact ⟨s, rfl, hs, ⟨_, (State.setArray_array_self s _).symm⟩, by simp, by simp⟩
  | cons i is ih =>
    have hi := h i List.mem_cons_self
    rw [List.nodup_cons] at hnd
    simp only [storeEntries]
    rw [writeNvWord_ok _ (by omega)]
    simp only [Flow.bind]
    obtain ⟨m, hm⟩ := s.pokeWord_eq (slotOffset k i) s.bank[i]
    have hcfg : (s.pokeWord (slotOffset k i) s.bank[i]).cfg = s.cfg := by rw [hm, State.setArray_cfg]
    have hbank : (s.pokeWord (slotOffset k i) s.bank[i]).bank = s.bank := by rw [hm, State.setArray_bank]
    obtain ⟨t, e, ok, ⟨m', hm'⟩, hin, hout⟩ := ih hnd.2 (s.pokeWord (slotOffset k i) s.bank[i])
      (State.pokeWord_buffersOk hs _ (by omega)) (by rw [hcfg]; exact fun i' hi' => h i' (List.mem_cons_of_mem _ hi'))
    refine ⟨t, e, ok, ⟨m', by rw [hm', hcfg, hm, State.setArray_setArray]⟩, fun i' hi' j hj => ?_, fun n hn => ?_⟩
    · rcases List.mem_cons.mp hi' with rfl | hi'
      · rw [hout]
        · exact State.peek_pokeWord_same hs _ (by omega) hj
        · intro i'' hi'' j' hj' heq
          refine hnd.1 (?_ : i' ∈ is)
          have : i' = i'' := Fin.ext (by unfold slotOffset at heq; omega)
          exact this ▸ hi''
      · rw [hin i' hi' j hj, hbank]
    · rw [hout n fun i' hi' => hn i' (List.mem_cons_of_mem _ hi')]
      exact State.peek_pokeWord_other s _ _ (hn i List.mem_cons_self)

/-- `v` put at index `i` of the store, if the store has that byte. -/
def State.pokeFit (s : State) (i : Nat) (v : Byte) : State := if i < bufSize s.cfg .nv then s.poke .nv i v else s

@[simp] theorem State.pokeFit_cfg (s : State) (i : Nat) (v : Byte) : (s.pokeFit i v).cfg = s.cfg := by
  unfold State.pokeFit
  split <;> simp

theorem State.pokeFit_buffersOk {s : State} (hs : s.buffersOk) (i : Nat) (v : Byte) :
    (s.pokeFit i v).buffersOk := by
  unfold State.pokeFit
  split
  · exact State.poke_buffersOk hs ‹_› v
  · exact hs

theorem State.pokeFit_eq (s : State) (m : Memory) (i : Nat) (v : Byte) :
    ∃ m' : Memory, (s.setArray (bufHome s.cfg .nv) m).pokeFit i v = s.setArray (bufHome s.cfg .nv) m' := by
  unfold State.pokeFit
  split
  · exact ⟨m.write i v, by simp [State.poke]⟩
  · exact ⟨m, rfl⟩

theorem State.peek_pokeFit_same {s : State} (hs : s.buffersOk) {i : Nat} (h : i < bufSize s.cfg .nv) (v : Byte) :
    (s.pokeFit i v).peek .nv i = v := by
  unfold State.pokeFit
  rw [if_pos h]
  exact State.peek_poke_same hs _ _ _

theorem State.peek_pokeFit_other (s : State) {i n : Nat} (v : Byte) (h : n ≠ i) :
    (s.pokeFit i v).peek .nv n = s.peek .nv n := by
  unfold State.pokeFit
  split
  · exact State.peek_poke_other _ _ _ h _
  · rfl

theorem State.peek_pokeFit_past (s : State) {i n : Nat} (v : Byte) (h : bufSize s.cfg .nv ≤ n) :
    (s.pokeFit i v).peek .nv n = s.peek .nv n := by
  by_cases hn : n = i
  · unfold State.pokeFit
    rw [if_neg (by omega)]
  · exact State.peek_pokeFit_other s v hn

/-- The four bytes of a word at offset `o`, those that the store has. -/
def State.pokeWordFit (s : State) (o : Nat) (w : BankWord) : State :=
  (((s.pokeFit o (bigEndianByte w 0)).pokeFit (o + 1) (bigEndianByte w 1)).pokeFit (o + 2)
    (bigEndianByte w 2)).pokeFit (o + 3) (bigEndianByte w 3)

theorem writeNvWord_faulted {s : State} {o : Nat} (w : BankWord) (h : bufSize s.cfg .nv ≤ o + 3) :
    writeNvWord o w s = .faulted ((s.pokeWordFit o w).raiseFault .indexOutOfRange) := by
  have h3 : ¬o + 3 < bufSize s.cfg .nv := by omega
  unfold State.pokeWordFit State.pokeFit
  by_cases h0 : o < bufSize s.cfg .nv <;> by_cases h1 : o + 1 < bufSize s.cfg .nv <;>
    by_cases h2 : o + 2 < bufSize s.cfg .nv <;>
    first
    | (exfalso; omega)
    | simp [writeNvWord, memWrite, Flow.bind, raise, h0, h1, h2, h3]

/-- What a word's fitting bytes leave: one array, those bytes, and every other byte as it was. -/
theorem State.pokeWordFit_spec {s : State} (hs : s.buffersOk) (o : Nat) (w : BankWord) :
    (s.pokeWordFit o w).buffersOk ∧ (∃ m : Memory, s.pokeWordFit o w = s.setArray (bufHome s.cfg .nv) m) ∧
      (∀ j < 4, o + j < bufSize s.cfg .nv → (s.pokeWordFit o w).peek .nv (o + j) = bigEndianByte w j) ∧
      ∀ n, (bufSize s.cfg .nv ≤ n ∨ ∀ j < 4, n ≠ o + j) → (s.pokeWordFit o w).peek .nv n = s.peek .nv n := by
  have s0 := State.pokeFit_buffersOk hs o (bigEndianByte w 0)
  have s1 := State.pokeFit_buffersOk s0 (o + 1) (bigEndianByte w 1)
  have s2 := State.pokeFit_buffersOk s1 (o + 2) (bigEndianByte w 2)
  refine ⟨State.pokeFit_buffersOk s2 _ _, ?_, fun j hj hb => ?_, fun n hn => ?_⟩
  · obtain ⟨m0, h0⟩ := State.pokeFit_eq s (s.array (bufHome s.cfg .nv)) o (bigEndianByte w 0)
    obtain ⟨m1, h1⟩ := State.pokeFit_eq s m0 (o + 1) (bigEndianByte w 1)
    obtain ⟨m2, h2⟩ := State.pokeFit_eq s m1 (o + 2) (bigEndianByte w 2)
    obtain ⟨m3, h3⟩ := State.pokeFit_eq s m2 (o + 3) (bigEndianByte w 3)
    rw [State.setArray_array_self] at h0
    exact ⟨m3, by rw [State.pokeWordFit, h0, h1, h2, h3]⟩
  · unfold State.pokeWordFit
    obtain rfl | rfl | rfl | rfl : j = 0 ∨ j = 1 ∨ j = 2 ∨ j = 3 := by omega
    · rw [State.peek_pokeFit_other _ _ (by omega), State.peek_pokeFit_other _ _ (by omega),
        State.peek_pokeFit_other _ _ (by omega)]
      exact State.peek_pokeFit_same hs hb _
    · rw [State.peek_pokeFit_other _ _ (by omega), State.peek_pokeFit_other _ _ (by omega)]
      exact State.peek_pokeFit_same s0 (by simpa using hb) _
    · rw [State.peek_pokeFit_other _ _ (by omega)]
      exact State.peek_pokeFit_same s1 (by simpa using hb) _
    · exact State.peek_pokeFit_same s2 (by simpa using hb) _
  · unfold State.pokeWordFit
    rcases hn with hn | hn
    · rw [State.peek_pokeFit_past _ _ (by simpa using hn), State.peek_pokeFit_past _ _ (by simpa using hn),
        State.peek_pokeFit_past _ _ (by simpa using hn), State.peek_pokeFit_past _ _ hn]
    · rw [State.peek_pokeFit_other _ _ (hn 3 (by omega)), State.peek_pokeFit_other _ _ (hn 2 (by omega)),
        State.peek_pokeFit_other _ _ (hn 1 (by omega)),
        State.peek_pokeFit_other s (i := o) _ (hn 0 (by omega))]

/-- A storing loop that meets an entry past the end of the store writes the bytes that the store has, and faults. -/
theorem storeEntries_faulted (k : Slot) (is : List (Fin 16)) (his : is.Pairwise (· < ·)) (s : State)
    (hs : s.buffersOk) (h : ∃ i ∈ is, bufSize s.cfg .nv ≤ slotOffset k i + 3) :
    ∃ t : State, storeEntries k is s = .faulted (t.raiseFault .indexOutOfRange) ∧
      (∃ m : Memory, t = s.setArray (bufHome s.cfg .nv) m) ∧
      (∀ i ∈ is, ∀ j < 4, slotOffset k i + j < bufSize s.cfg .nv →
        t.peek .nv (slotOffset k i + j) = bigEndianByte s.bank[i] j) ∧
      ∀ n, (bufSize s.cfg .nv ≤ n ∨ ∀ i ∈ is, ∀ j < 4, n ≠ slotOffset k i + j) →
        t.peek .nv n = s.peek .nv n := by
  induction is generalizing s with
  | nil => obtain ⟨_, hi, _⟩ := h; cases hi
  | cons i is ih =>
    rw [List.pairwise_cons] at his
    simp only [storeEntries]
    by_cases hi : slotOffset k i + 3 < bufSize s.cfg .nv
    · rw [writeNvWord_ok _ hi]
      simp only [Flow.bind]
      obtain ⟨m, hm⟩ := s.pokeWord_eq (slotOffset k i) s.bank[i]
      have hcfg : (s.pokeWord (slotOffset k i) s.bank[i]).cfg = s.cfg := by rw [hm, State.setArray_cfg]
      have hbank : (s.pokeWord (slotOffset k i) s.bank[i]).bank = s.bank := by rw [hm, State.setArray_bank]
      obtain ⟨t, e, ⟨m', hm'⟩, hin, hout⟩ := ih his.2 (s.pokeWord (slotOffset k i) s.bank[i])
        (State.pokeWord_buffersOk hs _ hi) (by
          obtain ⟨i', hi', hn⟩ := h
          rcases List.mem_cons.mp hi' with rfl | hi'
          · omega
          · exact ⟨i', hi', by rw [hcfg]; exact hn⟩)
      rw [hcfg] at hin hout
      rw [hbank] at hin
      refine ⟨t, e, ⟨m', by rw [hm', hcfg, hm, State.setArray_setArray]⟩, fun i' hi' j hj hb => ?_,
        fun n hn => ?_⟩
      · rcases List.mem_cons.mp hi' with rfl | hi'
        · rw [hout _ (.inr fun i'' hi'' j' hj' heq => ?_)]
          · exact State.peek_pokeWord_same hs _ hi hj
          · have := slotOffset_mono k (his.1 i'' hi'')
            omega
        · exact hin i' hi' j hj hb
      · rw [hout n (hn.imp_right fun hn i' hi' => hn i' (List.mem_cons_of_mem _ hi'))]
        refine State.peek_pokeWord_other s _ _ fun j hj heq => ?_
        rcases hn with hn | hn
        · omega
        · exact hn i List.mem_cons_self j hj heq
    · rw [writeNvWord_faulted _ (by omega)]
      obtain ⟨-, hm, hin, hout⟩ := State.pokeWordFit_spec hs (slotOffset k i) s.bank[i]
      refine ⟨_, rfl, hm, fun i' hi' j hj hb => ?_, fun n hn => hout n ?_⟩
      · rcases List.mem_cons.mp hi' with rfl | hi'
        · exact hin j hj hb
        · have := slotOffset_mono k (his.1 i' hi')
          omega
      · exact hn.imp_right fun hn => hn i List.mem_cons_self

end Sys2Proof.Machine
end

