-- ==== Sys2Proof/Laws/PerInstr.lean ====
section
/-!
SUPPORT. The family Accepted, one lemma for each constructor: the call of a well-formed transaction fits its port,
so the decoder never rejects it.
-/

namespace Sys2Proof.Laws.Accepted

/-- The decoder accepts the call of `i` under every configuration in which `i` is well formed. -/
def Statement (i : Instr) : Prop :=
  ∀ cfg : Config, i.wf cfg = true → ∃ j, decode cfg (encode cfg i) = .instr j

/-- A control call that fits its port is not rejected. -/
theorem ctl_accepted {cfg : Config} {ca v : Nat} (ha : fitsCtrlAddr cfg ca = true)
    (hv : fitsCtrlData cfg v = true) : ∃ j, decode cfg (.ctl ca v) = .instr j := by
  simp [decode, ha, hv]

theorem rd (la : LAddr) : Statement (.rd la) := fun _ _ => ⟨_, rfl⟩

theorem wr (la : LAddr) (d : Byte) : Statement (.wr la d) := fun _ _ => ⟨_, rfl⟩

theorem bload (la : LAddr) (k : Slot) : Statement (.bload la k) := fun _ _ => ⟨_, rfl⟩

theorem bstore (la : LAddr) (k : Slot) : Statement (.bstore la k) := fun _ _ => ⟨_, rfl⟩

theorem bcmdIgn (la : LAddr) (d : Byte) : Statement (.bcmdIgn la d) := fun _ _ => ⟨_, rfl⟩

theorem ctlDsr (v : Nat) : Statement (.ctlDsr v) := fun cfg h => by
  simp only [Instr.wf, Bool.and_eq_true] at h
  exact ctl_accepted h.1 h.2

theorem ctlRst (v : Nat) : Statement (.ctlRst v) := fun cfg h => by
  simp only [Instr.wf, Bool.and_eq_true] at h
  exact ctl_accepted h.1.1 h.1.2

theorem ctlAux (ca v : Nat) : Statement (.ctlAux ca v) := fun cfg h => by
  simp only [Instr.wf, Bool.and_eq_true] at h
  exact ctl_accepted h.1.1.1.1 h.1.1.1.2

theorem ctlOther (ca v : Nat) : Statement (.ctlOther ca v) := fun cfg h => by
  simp only [Instr.wf, Bool.and_eq_true] at h
  exact ctl_accepted h.1.1.1.1 h.1.1.1.2

theorem lineCru (level : Bool) : Statement (.lineCru level) := fun _ _ => ⟨_, rfl⟩

theorem linePtgen (level : Bool) : Statement (.linePtgen level) := fun _ _ => ⟨_, rfl⟩

theorem tick (edge : Bool) : Statement (.tick edge) := fun _ _ => ⟨_, rfl⟩

theorem reset : Statement .reset := fun _ _ => ⟨_, rfl⟩

end Sys2Proof.Laws.Accepted
end

