-- ==== Sys2Proof/Laws/Trace.lean ====
section
/-!
SUPPORT. Which device events each operation emits, once: an action that ends well emits its entry's events, one
that faults a first part of them.
-/

namespace Sys2Proof.Machine

/-- An operation that emits exactly `evs` where it ends well, and a first part of them where it faults. -/
structure TraceFlow {α : Type} (s : State) (x : Flow α) (evs : List Event) : Prop where
  ok      : ∀ a t, x = .ok a t → t.trace = s.trace ++ evs
  faulted : ∀ t, x = .faulted t → ∃ devs : List Event, devs <+: evs ∧ t.trace = s.trace ++ devs

theorem TraceFlow.pure {α : Type} (a : α) {s t : State} {evs : List Event} (h : t.trace = s.trace ++ evs) :
    TraceFlow s (.ok a t) evs :=
  ⟨fun _ _ e => by cases e; exact h, fun _ e => (nomatch e)⟩

theorem TraceFlow.raise {α : Type} (r : Fault) {s t : State} {evs devs : List Event} (hp : devs <+: evs)
    (h : t.trace = s.trace ++ devs) : TraceFlow s (raise r t : Flow α) evs :=
  ⟨fun _ _ e => (nomatch e), fun _ e => by cases e; exact ⟨devs, hp, by simpa [State.raiseFault] using h⟩⟩

theorem TraceFlow.bind {α β : Type} {s : State} {x : Flow α} {f : α → State → Flow β} {e1 e2 : List Event}
    (hx : TraceFlow s x e1) (hf : ∀ a t, x = .ok a t → TraceFlow t (f a t) e2) :
    TraceFlow s (x.bind f) (e1 ++ e2) := by
  cases x with
  | ok a t =>
    have h := hf a t rfl
    have ht := hx.ok a t rfl
    refine ⟨fun b u hu => by rw [h.ok b u hu, ht, List.append_assoc], fun u hu => ?_⟩
    obtain ⟨devs, hp, hd⟩ := h.faulted u hu
    exact ⟨e1 ++ devs, List.prefix_append_right_inj e1 |>.mpr hp, by rw [hd, ht, List.append_assoc]⟩
  | faulted t =>
    refine ⟨fun _ _ e => (nomatch e), fun u hu => ?_⟩
    cases hu
    obtain ⟨devs, hp, hd⟩ := hx.faulted t rfl
    exact ⟨devs, hp.trans (List.prefix_append e1 e2), hd⟩

theorem memRead_trace (b : Buf) (i : Nat) (s : State) : TraceFlow s (memRead b i s) [] := by
  unfold memRead
  split
  · exact .pure _ (by simp)
  · exact .raise _ (List.nil_prefix) (by simp)

theorem memWrite_trace (b : Buf) (i : Nat) (v : Byte) (s : State) : TraceFlow s (memWrite b i v s) [] := by
  unfold memWrite
  split
  · exact .pure _ (by simp)
  · exact .raise _ (List.nil_prefix) (by simp)

theorem romRead_trace (i : Nat) (s : State) : TraceFlow s (romRead i s) [] := by
  unfold romRead
  split
  · exact .pure _ (by simp)
  · exact .raise _ (List.nil_prefix) (by simp)

theorem deviceRead_trace (dev : String) (a : PAddr) (s : State) :
    TraceFlow s (deviceRead dev a s) [.devRead dev a] := by
  unfold deviceRead draw
  split
  · exact .pure _ (by simp)
  · exact .pure _ (by simp)
  · exact .pure _ (by simp)
  · exact .raise _ (List.prefix_rfl) (by simp)

theorem deviceWrite_trace (dev : String) (a : PAddr) (d : Byte) (s : State) :
    TraceFlow s (deviceWrite dev a d s) [.devWrite dev a d] := by
  unfold deviceWrite
  split
  · exact .pure _ (by simp)
  · exact .pure _ (by simp)
  · exact .raise _ (List.prefix_rfl) (by simp)

theorem actRead_trace (a : PAddr) (e : Entry) (s : State) : TraceFlow s (actRead a e s) (readEvents a e) := by
  obtain ⟨p, hk⟩ | ⟨dev, hk⟩ : (∃ p, e.kind = .pseudo p) ∨ ∃ dev, e.kind = .ext dev := by
    cases e.kind <;> simp
  · cases p <;> simp only [actRead, readEvents, hk]
    · exact memRead_trace _ _ s
    · exact romRead_trace _ s
    · exact romRead_trace _ s
    · exact romRead_trace _ s
    · exact memRead_trace _ _ s
    · exact .pure _ (by simp)
  · simp only [actRead, readEvents, hk]
    exact deviceRead_trace _ _ s

theorem actWrite_trace (a : PAddr) (d : Byte) (e : Entry) (s : State) :
    TraceFlow s (actWrite a d e s) (writeEvents a d e) := by
  obtain ⟨p, hk⟩ | ⟨dev, hk⟩ : (∃ p, e.kind = .pseudo p) ∨ ∃ dev, e.kind = .ext dev := by
    cases e.kind <;> simp
  · cases p <;> simp only [actWrite, writeEvents, hk]
    · exact memWrite_trace _ _ _ s
    · exact .pure _ (by simp)
    · exact .pure _ (by simp)
    · exact .pure _ (by simp)
    · exact memWrite_trace _ _ _ s
    · exact .pure _ (by simp)
  · simp only [actWrite, writeEvents, hk]
    exact deviceWrite_trace _ _ _ s

/-- Actions one after another emit their entries' events in order. -/
theorem actAll_trace {β : Type} {act : Entry → State → Flow β} {ev : Entry → List Event}
    (h : ∀ e s, TraceFlow s (act e s) (ev e)) (es : List Entry) (last : Option β) (s : State) :
    TraceFlow s (actAll act es last s) (es.flatMap ev) := by
  induction es generalizing last s with
  | nil => exact .pure _ (by simp)
  | cons e es ih =>
    rw [List.flatMap_cons]
    exact (h e s).bind fun r t _ => ih (some r) t

/-! ### A bank command's work emits nothing -/

theorem TraceFlow.bind_nil {α β : Type} {s : State} {x : Flow α} {f : α → State → Flow β}
    (hx : TraceFlow s x []) (hf : ∀ a t, TraceFlow t (f a t) []) : TraceFlow s (x.bind f) [] :=
  hx.bind (e2 := []) fun a t _ => hf a t

theorem loadEntries_trace (k : Slot) (is : List (Fin 16)) (s : State) : TraceFlow s (loadEntries k is s) [] := by
  induction is generalizing s with
  | nil => exact .pure _ (by simp)
  | cons i is ih =>
    have word : TraceFlow s (readNvWord (slotOffset k i) s) [] :=
      (memRead_trace _ _ s).bind_nil fun _ t => (memRead_trace _ _ t).bind_nil fun _ t =>
        (memRead_trace _ _ t).bind_nil fun _ t => (memRead_trace _ _ t).bind_nil fun _ _ => .pure _ (by simp)
    exact word.bind_nil fun w t => ⟨(ih (t.setBank i w)).ok, (ih (t.setBank i w)).faulted⟩

theorem storeEntries_trace (k : Slot) (is : List (Fin 16)) (s : State) :
    TraceFlow s (storeEntries k is s) [] := by
  induction is generalizing s with
  | nil => exact .pure _ (by simp)
  | cons i is ih =>
    have word : TraceFlow s (writeNvWord (slotOffset k i) s.bank[i] s) [] :=
      (memWrite_trace _ _ _ s).bind_nil fun _ t => (memWrite_trace _ _ _ t).bind_nil fun _ t =>
        (memWrite_trace _ _ _ t).bind_nil fun _ t => memWrite_trace _ _ _ t
    exact word.bind_nil fun _ t => ih t

end Sys2Proof.Machine
end

