-- ==== Sys2Proof/Tests/Slice0.lean ====
section
/-!
SUPPORT. Tests of one step each, with expected results from spec/95_test_vectors.md and from the spec's encodings,
and one witness for the hypotheses of each statement.
-/

open Sys2Proof Sys2Proof.Machine

namespace Sys2Proof.Tests

/-! ### Helpers -/

/-- The state S0 of 95 section 0, with `CRU_NATIVE_VALUE` true. -/
def s0 : State := State.reset

/-- A launch state under another configuration. -/
def under (cfg : Config) : State := State.launch cfg [] [] []

/-- S0 with one bank entry. -/
def mapped (i : Fin 16) (w : BankWord) : State := s0.setBank i w

/-- A view of the next state, if there is one. -/
def view {α : Type} (f : State → α) : Host.Outcome State Fault Refusal → Option α
  | .next s => some (f s)
  | .fault _ => none
  | .refused _ => none

/-- The refusal, if there is one. -/
def refusal : Host.Outcome State Fault Refusal → Option Refusal
  | .next _ => none
  | .fault _ => none
  | .refused r => some r

def L0 : Entry := ⟨0xF000, 0x6000, 0, .native, true, .ext "dsr"⟩
def L1 : Entry := ⟨0xF000, 0x7000, 0, .native, false, .ext "spy"⟩
def L2 : Entry := ⟨0xF000, 0x7000, 0, .native, true, .pseudo .sram⟩
def L3 : Entry := ⟨0xF800, 0x8000, 0, .native, true, .pseudo .sram⟩
def L4 : Entry := ⟨0xFC00, 0x8800, 0x0400, .native, true, .ext "vdp"⟩
def L5 : Entry := ⟨0xE000, 0x0000, 0, .native, true, .pseudo .rom0⟩
def L6 : Entry := ⟨0xE000, 0x0000, 0, .emulation, true, .pseudo .rom1⟩
def L7 : Entry := ⟨0xF000, 0x4000, 0, .dsr, true, .pseudo .rom1alt⟩
def L8 : Entry := ⟨0xF000, 0x5000, 0, .patgen, true, .ext "pgen"⟩
def P0 : Entry := ⟨0xFFFF0000, 0x00000000, 0, .physical, true, .pseudo .dram⟩
def P1 : Entry := ⟨0xFFFFC000, 0x00FF0000, 0, .physical, true, .pseudo .rom1⟩
def P2 : Entry := ⟨0xFFFFE000, 0x00FF8000, 0, .physical, true, .pseudo .rom0⟩
def P3 : Entry := ⟨0xFFFFFF00, 0x00FFFF00, 0, .physical, true, .pseudo .ints⟩

/-- Configuration X of FV2 and FV3: an SRAM window twice the size of the buffer. -/
def X0 : Entry := ⟨0xE000, 0xA000, 0, .native, true, .pseudo .sram⟩
def cfgX : Config := { configT true with logical := [X0] }

/-- A ROM image shorter than the ROM window. -/
def cfgShortRom : Config := { configT true with romSize := 0x1000 }

/-- A shadow buffer in front of a device (the reverse of L1, L2). -/
def B0 : Entry := ⟨0xF000, 0x7000, 0, .native, false, .pseudo .sram⟩
def B1 : Entry := ⟨0xF000, 0x7000, 0, .native, true, .ext "spy"⟩
def cfgBufferFirst : Config := { configT true with logical := [B0, B1] }

def cfgAlias : Config := { configT true with nvAlias := some .sram }
def cfgAliasDram : Config := { configT true with nvAlias := some .dram }

/-- A store that is the whole of an SRAM of 70 bytes: it holds slot 0, and one entry and a half of slot 1. -/
def cfgSmallAlias : Config := { configT true with nvAlias := some .sram, sramSize := 70 }

/-- A shadow device in front of a shadow device, behind both of which stands SRAM. -/
def B2 : Entry := ⟨0xF000, 0x7000, 0, .native, false, .ext "vdp"⟩
def cfgTwoShadows : Config := { configT true with logical := [L1, B2, L2] }
def cfgFlip : Config := { configT true with dsrWriteMode := .flip }

/-- S0 in the middle of a wait of `c` ticks. -/
def waiting (c : Nat) : State := { s0 with wait := c, ready := false, trace := [.notifyReady false] }

/-- The state after BSTORE k. -/
def stored (k : Slot) (s : State) : State := bankCommand (storeBank k) s

/-! ### WellFormed: a term that each check refuses -/

theorem test_wf_wr_in_the_command_range : Instr.wf (configT true) (.wr 0xFFF0 0) = false := by decide
theorem test_wf_bload_elsewhere : Instr.wf (configT true) (.bload 0xFFEF 0) = false := by decide
theorem test_wf_bstore_elsewhere : Instr.wf (configT true) (.bstore 0xFFF1 0) = false := by decide
theorem test_wf_bcmdIgn_elsewhere : Instr.wf (configT true) (.bcmdIgn 0x1000 0x10) = false := by decide
theorem test_wf_bcmdIgn_with_a_command : Instr.wf (configT true) (.bcmdIgn 0xFFF0 0x0F) = false := by decide
theorem test_wf_ctlDsr_value_too_wide : Instr.wf (configT true) (.ctlDsr 256) = false := by decide
theorem test_wf_ctlDsr_address_too_wide :
    Instr.wf { configT true with ctrlDsrAddr := 0x10000 } (.ctlDsr 0) = false := by decide
theorem test_wf_ctlRst_value_too_wide : Instr.wf (configT true) (.ctlRst 256) = false := by decide
theorem test_wf_ctlRst_address_too_wide :
    Instr.wf { configT true with ctrlResetAddr := 0x10000 } (.ctlRst 0) = false := by decide
theorem test_wf_ctlRst_at_the_dsr_address :
    Instr.wf { configT true with ctrlResetAddr := 0 } (.ctlRst 0) = false := by decide
theorem test_wf_ctlAux_outside_its_range : Instr.wf (configT true) (.ctlAux 0x20 0) = false := by decide
theorem test_wf_ctlAux_too_wide :
    Instr.wf { configT true with auxSerialRange := [⟨0, 0x20000⟩] } (.ctlAux 0x10000 0) = false ∧
      Instr.wf (configT true) (.ctlAux 0x10 256) = false := by decide
theorem test_wf_ctlAux_at_a_register :
    Instr.wf { configT true with auxSerialRange := [⟨0, 1⟩] } (.ctlAux 0 0) = false ∧
      Instr.wf { configT true with auxSerialRange := [⟨0, 1⟩] } (.ctlAux 1 0) = false := by decide
theorem test_wf_ctlOther_in_the_aux_range : Instr.wf (configT true) (.ctlOther 0x1F 0) = false := by decide
theorem test_wf_ctlOther_at_a_register :
    Instr.wf (configT true) (.ctlOther 0 0) = false ∧ Instr.wf (configT true) (.ctlOther 1 0) = false := by decide
theorem test_wf_ctlOther_too_wide :
    Instr.wf (configT true) (.ctlOther 0x10000 0) = false ∧
      Instr.wf (configT true) (.ctlOther 0x20 256) = false := by decide

/-! ### Configurations (00 R7): the spec's own passes, and each check refuses one -/

theorem test_cfgT_is_accepted : configAccepted (configT true) = true ∧ configAccepted (configT false) = true := by
  decide
theorem test_cfgT_rom_windows_are_disjoint : physicalRomWindowsDisjoint (configT true) = true := by decide
theorem test_rom_windows_overlap :
    physicalRomWindowsDisjoint { configT true with rom0Off := 0x4000 } = false := by decide
theorem test_cfg_a_wide_logical_entry :
    configAccepted { configT true with logical := [{ L0 with mask := 0x10000 }] } = false := by decide
theorem test_cfg_b_physical_entry_among_the_logical :
    configAccepted { configT true with logical := [{ L0 with mode := .physical }] } = false := by decide
theorem test_cfg_b_logical_entry_among_the_physical :
    configAccepted { configT true with physical := [{ P0 with mode := .native }] } = false := by decide
theorem test_cfg_c_unknown_device :
    configAccepted { configT true with logical := [{ L0 with kind := .ext "nosuch" }] } = false := by decide
theorem test_cfg_d_wait_of_zero :
    configAccepted { configT true with waitLogical := 0 } = false ∧
      configAccepted { configT true with waitPhysical := 0 } = false := by decide
theorem test_cfg_e_short_store : configAccepted { configT true with nvSize := 511 } = false := by decide
theorem test_cfg_f_control_addresses_meet :
    configAccepted { configT true with ctrlResetAddr := 0 } = false ∧
      configAccepted { configT true with ctrlDsrAddr := 0x10 } = false ∧
      configAccepted { configT true with ctrlResetAddr := 0x1F } = false := by decide

/-- RB1 (95 section 2.13), with an order of its own for the two collections. -/
theorem test_build_rb1 :
    build pseudoNamesT ["dsr"]
      [⟨"dsr", 0xF000, 0x6000, 0, .native, true⟩, ⟨"DRAM", 0xFFFF0000, 0, 0, .physical, true⟩,
        ⟨"nosuch", 0xF000, 0x7000, 0, .native, true⟩, ⟨"ROM0", 0xE000, 0, 0, .emulation, true⟩] =
      ([L0, { L5 with mode := .emulation }], [P0]) := by decide

/-- A pseudo-resource name wins over a device of the same name (92 D32). -/
theorem test_resolve_pseudo_first :
    resolve pseudoNamesT ["SRAM"] ⟨"SRAM", 0xF000, 0x7000, 0, .native, true⟩ = some L2 := by decide

/-- RB2: nothing is configured, and every access misses both levels. -/
theorem test_build_rb2 : build pseudoNamesT [] [] = ([], []) := by decide

/-! ### Decode: words written out from 30 R46 to R53 -/

/-- The payload 0000kkk1 with k = 101 is 0x0B, and 0000kkk0 is 0x0A. -/
theorem test_decode_bank_payloads :
    decode (configT true) (.busWrite 0xFFF0 0b00001011) = .instr (.bload 0xFFF0 0b101) ∧
      decode (configT true) (.busWrite 0xFFF0 0b00001010) = .instr (.bstore 0xFFF0 0b101) := by decide

/-- BC4: 0xF3 is not BLOAD 1. The read at the same address is an ordinary RD (30 R51). -/
theorem test_decode_ignored_payloads :
    decode (configT true) (.busWrite 0xFFF0 0x10) = .instr (.bcmdIgn 0xFFF0 0x10) ∧
      decode (configT true) (.busWrite 0xFFF0 0xF3) = .instr (.bcmdIgn 0xFFF0 0xF3) ∧
      decode (configT true) (.busRead 0xFFF0) = .instr (.rd 0xFFF0) := by decide

theorem test_decode_rd_wr :
    decode (configT true) (.busRead 0b1001000000000000) = .instr (.rd 0x9000) ∧
      decode (configT true) (.busWrite 0b1001000000000001 0b01110111) = .instr (.wr 0x9001 0x77) := by decide

theorem test_decode_control :
    decode (configT true) (.ctl 0x00 0xFE) = .instr (.ctlDsr 0xFE) ∧
      decode (configT true) (.ctl 0x01 0x03) = .instr (.ctlRst 0x03) ∧
      decode (configT true) (.ctl 0x1F 0xFF) = .instr (.ctlAux 0x1F 0xFF) ∧
      decode (configT true) (.ctl 0x20 0x01) = .instr (.ctlOther 0x20 0x01) := by decide

theorem test_decode_lines_tick_reset :
    decode (configT true) (.line .cru false) = .instr (.lineCru false) ∧
      decode (configT true) (.line .ptgen true) = .instr (.linePtgen true) ∧
      decode (configT true) (.tick false) = .instr (.tick false) ∧
      decode (configT true) .reset = .instr .reset := by decide

/-- CTL_DSR and CTL_RST as their encodings give them back. -/
theorem test_encode_script_forms :
    encode (configT true) (.bload 0xFFF0 2) = .busWrite 0xFFF0 0x05 ∧
      encode (configT true) (.bstore 0xFFF0 2) = .busWrite 0xFFF0 0x04 ∧
      encode (configT true) (.ctlDsr 1) = .ctl 0x00 1 ∧ encode (configT true) (.ctlRst 1) = .ctl 0x01 1 := by decide

theorem test_decode_refuses_wide_control :
    decode (configT true) (.ctl 0x10000 0) = .rejected .ctrlAddressTooWide ∧
      decode (configT true) (.ctl 0 256) = .rejected .ctrlValueTooWide := by decide

theorem test_table_words :
    decodeTableWord 8 0b00000011 = some (.bload 0xFFF0 1) ∧ decodeTableWord 8 0b00000100 = some (.bstore 0xFFF0 2) ∧
      decodeTableWord 16 0x6123 = some (.rd 0x6123) ∧ decodeTableWord 24 0x779001 = some (.wr 0x9001 0x77) ∧
      decodeTableWord 24 0x10FFF0 = some (.bcmdIgn 0xFFF0 0x10) ∧ decodeTableWord 0 0 = some .reset ∧
      decodeTableWord 40 0 = none := by decide

/-- A bank load placed at the head of the input runs as the first transaction: its wait is WAIT_LOGICAL. -/
theorem test_fetch_word_runs :
    view (fun s => (s.wait, s.ready, s.inbox)) (step (s0.withFetchWord 8 3)) = some (2, false, []) := by decide

theorem test_step_refuses_a_wide_call :
    refusal (step { s0 with inbox := [.ctl 0 256] }) = some (.callRejected .ctrlValueTooWide) := by decide

theorem test_step_refuses_a_bad_configuration :
    refusal (step (under { configT true with nvSize := 0 })) = some .configRefused := by decide

/-! ### Comparators and relocation (95 sections 2.1, 2.2, 2.5) -/

/-- M1 to M4. -/
theorem test_match_split_device :
    entryMatches L4 .read 0x8802 = true ∧ entryMatches L4 .write 0x8802 = false ∧
      entryMatches L4 .write 0x8C02 = true ∧ entryMatches L4 .read 0x8C02 = false := by decide

/-- M5 to M8. -/
theorem test_match_corners :
    entryMatches ⟨0, 0, 0, .native, true, .pseudo .sram⟩ .write 0xABCD = true ∧
      entryMatches ⟨0, 0, 1, .native, true, .pseudo .sram⟩ .write 0xABCD = false ∧
      entryMatches ⟨0xF000, 0x6001, 0, .native, true, .pseudo .sram⟩ .read 0x6001 = false ∧
      entryIndex ⟨0xFFFF, 0x1234, 0, .native, true, .pseudo .sram⟩ (widen 0x1234) = 0 := by decide

/-- M9, M10. -/
theorem test_match_physical :
    entryMatches P1 .read 0x00FF3FFF = true ∧ entryIndex P1 0x00FF3FFF = 0x3FFF ∧
      entryMatches P1 .read 0x00FF4000 = false := by decide

/-- E1, E2. -/
theorem test_eligible_by_regime :
    logicalT.filter (eligibleLogical s0) = [L0, L1, L2, L3, L4, L5] ∧
      logicalT.filter (eligibleLogical { s0 with cruMode := false }) = [L6] := by decide

/-- E3, E4. -/
theorem test_eligible_by_flags :
    logicalT.filter (eligibleLogical { s0 with dsrSelected := true }) = [L0, L1, L2, L3, L4, L5, L7] ∧
      logicalT.filter (eligibleLogical { s0 with cruMode := false, dsrSelected := true, ptgen := true }) =
        [L6, L7, L8] := by decide

/-- A replaced table (92 D5): NATIVE entries never, DSR entries under either of the two flags. -/
theorem test_eligible_under_another_table :
    let gates : ModeEnabled :=
      { ModeEnabled.decided with native := [], dsr := FlagLevels.all.filter fun f => f.ptgen || f.dsrSelected }
    let s : State := under { configT true with modeEnabled := gates }
    eligibleLogical s L0 = false ∧ eligibleLogical s L7 = false ∧
      eligibleLogical { s with ptgen := true } L7 = true ∧
      eligibleLogical { s with dsrSelected := true } L7 = true := by decide

/-- RL1 to RL3. -/
theorem test_relocate_wraps :
    relocate (mapped 15 0).bank 0xF123 = 0x123 ∧ relocate (mapped 9 0x2800).bank 0x9FFF = 0x37FF ∧
      relocate (mapped 15 0xFFFFF800).bank 0xF900 = 0x100 := by decide

/-- RL4 to RL6. -/
theorem test_relocate_unaligned :
    relocate (mapped 15 0xFFFFF800).bank 0xF7FF = 0xFFFFFFFF ∧ relocate (mapped 1 0x801).bank 0x1FFF = 0x1800 ∧
      relocate (mapped 2 0x00FF0000).bank 0x2ABC = 0x00FF0ABC := by decide

/-! ### RD and WR (95 sections 1, 2.3, 2.4, 2.6, 2.12) -/

/-- V1. -/
theorem test_rd_device :
    view (fun s => (s.returned, s.trace, s.wait, s.ready))
      (exec (.rd 0x6123) { s0 with replies := [.answer 0xD5 true] }) =
      some ([0xD5], [.devRead "dsr" 0x6123, .notifyReady false], 2, false) := by decide

/-- V2: DRAM[0x2800] holds 0x5A as in program P1. -/
theorem test_rd_relocated_dram :
    view (fun s => (s.returned, s.trace, s.wait))
      (exec (.rd 0x9000) { mapped 9 0x2800 with dram := [(0x2800, 0x5A)] }) =
      some ([0x5A], [.notifyReady false], 3) := by decide

/-- S2: the shadow write reaches the device and then SRAM[0x010]. -/
theorem test_wr_shadow :
    view (fun s => (s.trace, s.sram, s.wait)) (exec (.wr 0x7010 0xAB) s0) =
      some ([.devWrite "spy" 0x7010 0xAB, .notifyReady false], [(0x010, 0xAB)], 2) := by decide

/-- PD6: the device gets the unmodified physical address. -/
theorem test_rd_physical_device :
    view (fun s => (s.returned, s.trace, s.wait))
      (exec (.rd 0x7123) { mapped 7 0x00FE0000 with cruMode := false, replies := [.answer 0x3C true] }) =
      some ([0x3C], [.devRead "xbus" 0x00FE0123, .notifyReady false], 3) := by decide

/-- LD8: the write misses the split device and falls through to DRAM. -/
theorem test_wr_falls_through :
    view (fun s => (s.trace, s.dram, s.wait)) (exec (.wr 0x8805 0x99) s0) =
      some ([.notifyReady false], [(0x805, 0x99)], 3) := by decide

/-- FV3: the fault is recorded, and neither the counter nor the ready line moves. -/
theorem test_rd_past_the_end :
    view (fun s => (s.fault, s.wait, s.ready, s.returned)) (exec (.rd 0xB000) (under cfgX)) =
      some (some .indexOutOfRange, 0, true, []) := by decide

/-! ### Bank commands (95 section 2.7) -/

/-- V4, BC1: slot 1, entry 0 at 64 and entry 9 at 100, big-endian. -/
theorem test_bload :
    view (fun s => (s.bank[0], s.bank[9], s.bank[1], s.wait))
      (exec (.bload 0xFFF0 1)
        { s0 with nv := [(64, 0x12), (65, 0x34), (66, 0x56), (67, 0x78), (102, 0x28)] }) =
      some (0x12345678, 0x2800, 0, 2) := by decide

/-- 42 R94 with 00 R9, log entry 9: entry 0 of slot 1 is loaded before entry 1 runs past the store. -/
theorem test_bload_past_the_store :
    view (fun s => (s.bank[0], s.bank[1], s.fault, s.wait))
      (exec (.bload 0xFFF0 1) { under cfgSmallAlias with sram := [(64, 0x12), (68, 0x34), (69, 0x56)] }) =
      some (0x12000000, 0, some .indexOutOfRange, 0) := by decide

/-- V6: entry 0 to bytes 192 to 195. -/
theorem test_bstore :
    view (fun s => (s.nv, s.wait)) (exec (.bstore 0xFFF0 3) (mapped 0 0x12345678)) =
      some ([(192, 0x12), (193, 0x34), (194, 0x56), (195, 0x78)], 2) := by decide

/-- BC7: storing a zero table erases what slot 1 held. -/
theorem test_bstore_overwrites :
    view (fun s => s.nv) (exec (.bstore 0xFFF0 1) { s0 with nv := [(63, 1), (64, 2), (127, 3), (128, 4)] }) =
      some [(63, 1), (128, 4)] := by decide

/-- BC3. -/
theorem test_bcmdIgn :
    view (fun s => (s.wait, s.ready, s.nv)) (exec (.bcmdIgn 0xFFF0 0x10) s0) = some (2, false, []) := by decide

/-! ### Control, lines, ticks, reset (95 sections 2.8 to 2.11) -/

/-- CT3, CT4. -/
theorem test_ctlDsr_uses_bit_0 :
    view (fun s => s.dsrSelected) (exec (.ctlDsr 0xFE) s0) = some false ∧
      view (fun s => s.dsrSelected) (exec (.ctlDsr 0xFF) s0) = some true := by decide

/-- CT10. -/
theorem test_ctlDsr_flip :
    view (fun s => s.dsrSelected) (exec (.ctlDsr 0) (under cfgFlip)) = some true ∧
      view (fun s => s.dsrSelected) (exec (.ctlDsr 0) { under cfgFlip with dsrSelected := true }) = some false := by
  decide

/-- CT6, CT7. -/
theorem test_ctlRst :
    view (fun s => s.trace) (exec (.ctlRst 0x00) s0) = some [] ∧
      view (fun s => s.trace) (exec (.ctlRst 0x03) s0) = some [.requestSoftReset] := by decide

/-- CT8, CT9. -/
theorem test_ctl_nothing :
    view id (exec (.ctlAux 0x15 0xFF) s0) = some s0 ∧ view id (exec (.ctlOther 0x02 0x01) s0) = some s0 := by decide

/-- ML1, ML3. -/
theorem test_lines :
    view (fun s => (s.ptgen, s.cruMode)) (exec (.linePtgen true) s0) = some (true, true) ∧
      view (fun s => (s.cruMode, s.wait)) (exec (.lineCru false) (waiting 3)) = some (false, 3) := by decide

/-- TK1, TK2. -/
theorem test_tick :
    view (fun s => (s.wait, s.ready)) (exec (.tick true) (waiting 2)) = some (1, false) ∧
      view (fun s => (s.wait, s.ready)) (exec (.tick false) (waiting 2)) = some (2, false) := by decide

/-- TK1, its second tick; TK3. -/
theorem test_last_tick :
    view (fun s => (s.wait, s.ready, s.trace)) (exec (.tick true) (waiting 1)) =
        some (0, true, [.notifyReady false, .notifyReady true]) ∧
      view id (exec (.tick true) s0) = some s0 := by decide

/-- RS1, with the two buffers and the record of RS2 and RS3. -/
theorem test_reset :
    view (fun s => (s.bank[9], [s.dsrSelected, s.cruMode, s.ptgen, s.ready], s.wait, s.trace))
      (exec .reset { mapped 9 0x2800 with dsrSelected := true, cruMode := false, ptgen := true, wait := 2,
                                          ready := false }) =
      some (0, [false, true, false, true], 0, [.notifyReady true]) := by decide
theorem test_reset_keeps :
    view (fun s => (s.sram, s.nv, s.violation))
      (exec .reset { s0 with sram := [(0x010, 0xAB)], nv := [(100, 0x28)], violation := true }) =
      some ([(0x010, 0xAB)], [(100, 0x28)], true) := by decide

/-! ### Witnesses: a state and operands that meet the hypotheses of each statement -/

theorem test_witness_DecodeOfEncodeIsIdentity :
    [Instr.rd 0xFFFF, .wr 0xFFEF 0xFF, .bload 0xFFF0 7, .bstore 0xFFF0 0, .bcmdIgn 0xFFF0 0x10, .ctlDsr 255,
      .ctlRst 0, .ctlAux 0x1F 255, .ctlOther 0xFFFF 0, .lineCru true, .linePtgen false, .tick true, .reset].all
      (Instr.wf (configT true)) = true := by decide

theorem test_witness_EncodeOfDecodeIsIdentity :
    decode (configT true) (.ctl 0xFFFF 0xFF) = .instr (.ctlOther 0xFFFF 0xFF) := by decide

theorem test_witness_BankPayloadClassification :
    inBankCmdRange (configT true) 0xFFF0 = true ∧ (16 ≤ (0x10 : Byte).toNat ∧ 16 ≤ (0xFF : Byte).toNat) ∧
      inBankCmdRange (configT true) 0xFFF1 = false := by decide

/-- One address for each clause, the ends of the AUX range among them. -/
theorem test_witness_ControlClassification :
    (0 < 2 ^ (configT true).ctrlAddrWidth ∧ 0xFFFF < 2 ^ (configT true).ctrlAddrWidth ∧
      255 < 2 ^ (configT true).ctrlDataWidth) ∧
    0 = (configT true).ctrlDsrAddr ∧ (1 ≠ (configT true).ctrlDsrAddr ∧ 1 = (configT true).ctrlResetAddr) ∧
    (∃ r ∈ (configT true).auxSerialRange, r.lo ≤ 0x10 ∧ 0x10 ≤ r.hi) ∧
    (∃ r ∈ (configT true).auxSerialRange, r.lo ≤ 0x1F ∧ 0x1F ≤ r.hi) ∧
    (∀ r ∈ (configT true).auxSerialRange, ¬(r.lo ≤ 0x20 ∧ 0x20 ≤ r.hi)) := by decide

theorem test_witness_StepRunsTheOldestCall :
    configAccepted s0.cfg = true ∧
      ({ s0 with inbox := [.tick true, .reset] } : State).inbox = .tick true :: [.reset] ∧
      decode s0.cfg (.tick true) = .instr (.tick true) := by decide

theorem test_witness_IdleStepChangesNothing : configAccepted s0.cfg = true ∧ s0.inbox = [] := by decide

/-- Both sides of the equivalence have a state. -/
theorem test_witness_IllFormedConfigurationIsRefused :
    refusal (step (under { configT true with nvSize := 511 })) = some .configRefused ∧
      refusal (step (under { configT true with nvSize := 512 })) = none := by decide

/-- A name for each of the three clauses. -/
theorem test_witness_BuiltEntriesPassTheirChecks :
    pseudoNamesT.lookup "SRAM" = some .sram ∧ (∀ x ∈ pseudoNamesT, x.1 ≠ "dsr") ∧ "dsr" ∈ devicesT ∧
      (∀ x ∈ pseudoNamesT, x.1 ≠ "nosuch") ∧ "nosuch" ∉ devicesT := by decide

/-- M7, M6 and L4 meet the premises of the corner cases. -/
theorem test_witness_MatchIsAMaskedCompare :
    (0x6001#32 &&& ~~~0xF000#32 ≠ 0#32) ∧ (0x0001#32 &&& ~~~0x0000#32 ≠ 0#32) ∧ L5.wsel = 0#32 ∧
      L4.wsel &&& L4.mask &&& ~~~L4.pattern ≠ 0#32 := by decide

theorem test_witness_EligibilityUnderTheDecidedTable :
    s0.cfg.modeEnabled = ModeEnabled.decided ∧ L0.mode = .native ∧ L6.mode = .emulation ∧ L8.mode = .patgen ∧
      L7.mode = .dsr ∧ P0.mode = .physical := by decide

/-- V8: L2 stops the scan of 0x7010. -/
theorem test_witness_NothingActsPastAStop : logicalHit s0 .read 0x7010 L2 = true ∧ L2.stop = true := by decide

theorem test_witness_FoundExactlyWhenSomeEntryActs :
    ∃ r t, scan (logicalHit s0 .read 0x7010) (fun _ s => .ok (0 : Byte) s) logicalT none s0 = .ok r t :=
  ⟨_, _, rfl⟩

theorem test_witness_RelocationAddsModulo : (0xFFFF : LAddr).toNat / 4096 < 16 := by decide

theorem test_witness_RelocationIsIdentityOnAZeroPage :
    s0.bank[pageOf 0x5ABC] = 0#32 ∧ ∃ t, exec .reset (mapped 9 0x2800) = .next t :=
  ⟨by decide, _, rfl⟩

/-- A logical hit on a buffer, at the last address of the window. -/
theorem test_witness_ReadOfABuffer :
    Reaches s0 .read 0x87FF [L3] 0x87FF 2 ∧ bufferOf L3 = some .sram ∧
      (entryIndex L3 0x87FF).toNat < bufSize s0.cfg .sram := by unfold Reaches; decide

/-- A physical hit on a buffer, at its last byte. -/
theorem test_witness_ReadOfABuffer_physical :
    Reaches (mapped 9 0xF000) .read 0x9FFF [P0] 0xFFFF 3 ∧ bufferOf P0 = some .dram ∧
      (entryIndex P0 0xFFFF).toNat < bufSize s0.cfg .dram := by unfold Reaches; decide

theorem test_witness_ReadOfRom :
    Reaches s0 .read 0x1FFF [L5] 0x1FFF 2 ∧ romOffset s0.cfg L5 = some 0 ∧
      ((0 : PAddr) ||| entryIndex L5 0x1FFF).toNat < s0.cfg.romSize := by unfold Reaches; decide

/-- PD2. -/
theorem test_witness_ReadOfRom_physical :
    Reaches (mapped 2 0x00FF0000) .read 0x2ABC [P1] 0x00FF0ABC 3 ∧ romOffset s0.cfg P1 = some 0x4000 ∧
      ((0x4000 : PAddr) ||| entryIndex P1 0x00FF0ABC).toNat < s0.cfg.romSize := by unfold Reaches; decide

/-- PD5. -/
theorem test_witness_ReadOfInterruptSense :
    Reaches (mapped 3 0x00FFFF00) .read 0x3010 [P3] 0x00FFFF10 3 ∧ P3.kind = .pseudo .ints := by
  unfold Reaches; decide

/-- One reply for each clause. -/
theorem test_witness_ReadOfADevice :
    Reaches s0 .read 0x6123 [L0] 0x6123 2 ∧ L0.kind = .ext "dsr" ∧
      ({ s0 with replies := [.answer 0xD5 true] } : State).replies = .answer 0xD5 true :: [] ∧
      ({ s0 with replies := [.answer 0 false] } : State).replies = .answer 0 false :: [] ∧ s0.replies = [] := by
  unfold Reaches; decide

/-- PD7, PD8. -/
theorem test_witness_ReadOfAnUnmappedAddress : Unmapped (mapped 5 0x01000000) .read 0x5000 := by
  unfold Unmapped; decide
theorem test_witness_WriteToAnUnmappedAddressIsDiscarded : Unmapped (mapped 5 0x01000000) .write 0x5000 := by
  unfold Unmapped; decide

/-- S1. -/
theorem test_witness_ShadowReadReturnsTheLastValue :
    Reaches { s0 with replies := [.answer 0x11 true] } .read 0x7010 [L1, L2] 0x7010 2 ∧
      L1.kind = .ext "spy" ∧ bufferOf L2 = some .sram ∧
      (entryIndex L2 0x7010).toNat < bufSize s0.cfg .sram := by unfold Reaches; decide

/-- FV3: the first byte past the buffer. -/
theorem test_witness_ReadPastTheEndFaults :
    Reaches (under cfgX) .read 0xB000 [X0] 0xB000 2 ∧ bufferOf X0 = some .sram ∧
      bufSize cfgX .sram ≤ (entryIndex X0 0xB000).toNat := by unfold Reaches; decide

/-- The first byte past the image. -/
theorem test_witness_ReadPastTheEndFaults_rom :
    Reaches (under cfgShortRom) .read 0x1000 [L5] 0x1000 2 ∧ romOffset cfgShortRom L5 = some 0 ∧
      cfgShortRom.romSize ≤ ((0 : PAddr) ||| entryIndex L5 0x1000).toNat := by unfold Reaches; decide

/-- FV4. -/
theorem test_witness_ReentryDuringAReadFaults :
    Reaches { s0 with replies := [.reenter] } .read 0x6123 [L0] 0x6123 2 ∧ L0.kind = .ext "dsr" := by
  unfold Reaches; decide

/-- The second of two devices calls back. -/
theorem test_witness_ReentryDuringAReadFaults_second :
    Reaches { under cfgTwoShadows with replies := [.answer 1 true, .reenter] } .read 0x7010 ([L1] ++ B2 :: [L2])
        0x7010 2 ∧
      B2.kind = .ext "vdp" ∧
      ∃ r s1, actAll (actRead 0x7010) [L1] none
          (State.checkReady { under cfgTwoShadows with replies := [.answer 1 true, .reenter] }) = .ok r s1 ∧
        s1.replies = .reenter :: [] :=
  ⟨by unfold Reaches; decide, by decide, _, _, rfl, rfl⟩

theorem test_witness_ReadFrame : ∃ t, exec (.rd 0x7010) s0 = .next t := ⟨_, rfl⟩

theorem test_witness_WriteOfABuffer :
    Reaches s0 .write 0x8000 [L3] 0x8000 2 ∧ bufferOf L3 = some .sram ∧
      (entryIndex L3 0x8000).toNat < bufSize s0.cfg .sram ∧ s0.buffersOk := by unfold Reaches; decide

/-- LD8, through the physical level. -/
theorem test_witness_WriteOfABuffer_physical :
    Reaches s0 .write 0x8805 [P0] 0x805 3 ∧ bufferOf P0 = some .dram ∧
      (entryIndex P0 0x805).toNat < bufSize s0.cfg .dram := by unfold Reaches; decide

/-- LD3. -/
theorem test_witness_WriteToRomIsDropped :
    Reaches s0 .write 0x1234 [L5] 0x1234 2 ∧ ∀ e ∈ [L5], dropsWrites e = true := by unfold Reaches; decide

/-- LD6, without a reply, with an answer, and with a device that calls back. -/
theorem test_witness_WriteOfADevice :
    Reaches s0 .write 0x8C05 [L4] 0x8C05 2 ∧ L4.kind = .ext "vdp" ∧ s0.replies = [] ∧
      ({ s0 with replies := [.answer 0 true] } : State).replies = .answer 0 true :: [] ∧
      ({ s0 with replies := [.reenter] } : State).replies = .reenter :: [] := by unfold Reaches; decide

theorem test_witness_WritePastTheEndFaults :
    Reaches (under cfgX) .write 0xB000 [X0] 0xB000 2 ∧ bufferOf X0 = some .sram ∧
      bufSize cfgX .sram ≤ (entryIndex X0 0xB000).toNat := by unfold Reaches; decide

theorem test_witness_ReentryKeepsEarlierEffects :
    Reaches { under cfgBufferFirst with replies := [.reenter] } .write 0x7010 (B0 :: B1 :: []) 0x7010 2 ∧
      bufferOf B0 = some .sram ∧ (entryIndex B0 0x7010).toNat < bufSize cfgBufferFirst .sram ∧
      B1.kind = .ext "spy" := by unfold Reaches; decide

/-- The second of two devices calls back, and the first has taken the byte. -/
theorem test_witness_ReentryKeepsEarlierEffects_devices :
    Reaches { under cfgTwoShadows with replies := [.answer 1 true, .reenter] } .write 0x7010 ([L1] ++ B2 :: [L2])
        0x7010 2 ∧
      B2.kind = .ext "vdp" ∧
      ∃ r s1, actAll (actWrite 0x7010 0xAB) [L1] none
          (State.checkReady { under cfgTwoShadows with replies := [.answer 1 true, .reenter] }) = .ok r s1 ∧
        s1.replies = .reenter :: [] :=
  ⟨by unfold Reaches; decide, by decide, _, _, rfl, rfl⟩

/-- The byte beside the stored one meets the premises of the frame. -/
theorem test_witness_WriteFrame :
    (∃ t, exec (.wr 0x8010 0xAB) s0 = .next t) ∧
      (∀ e ∈ actingLogical s0 .write 0x8010, bufferOf e = some .sram → (entryIndex e (widen 0x8010)).toNat ≠ 0x11) ∧
      actingLogical s0 .write 0x8010 ≠ [] :=
  ⟨⟨_, rfl⟩, by decide, by decide⟩

/-- Write and read of SRAM[0x010] through L3, the states between being one. -/
theorem test_witness_ReadAfterWriteReturnsTheByte :
    ∃ t w, s0.buffersOk ∧ Reaches s0 .write 0x8010 [L3] 0x8010 2 ∧ bufferOf L3 = some .sram ∧
      (entryIndex L3 0x8010).toNat < bufSize s0.cfg .sram ∧ exec (.wr 0x8010 0xAB) s0 = .next t ∧
      Reaches t .read 0x8010 [L3] 0x8010 2 ∧ (entryIndex L3 0x8010).toNat < bufSize t.cfg .sram ∧
      exec (.rd 0x8010) t = .next w :=
  ⟨_, _, by decide, by unfold Reaches; decide, by decide, by decide, rfl, by unfold Reaches; decide, by decide, rfl⟩

theorem test_witness_AliasedStoreSeesBusWrites :
    (under cfgAlias).cfg.nvAlias = some .sram ∧ (under cfgAlias).buffersOk ∧
      Reaches (under cfgAlias) .write 0x8010 [L3] 0x8010 2 ∧ bufferOf L3 = some .sram ∧
      (entryIndex L3 0x8010).toNat < bufSize cfgAlias .sram ∧ (entryIndex L3 0x8010).toNat < bufSize cfgAlias .nv ∧
      ∃ t, exec (.wr 0x8010 0xAB) (under cfgAlias) = .next t :=
  ⟨by decide, by decide, by unfold Reaches; decide, by decide, by decide, by decide, _, rfl⟩

/-- The last byte of the store, inside DRAM. -/
theorem test_witness_AliasedStoreSeesBusWrites_dram :
    (under cfgAliasDram).cfg.nvAlias = some .dram ∧ (under cfgAliasDram).buffersOk ∧
      Reaches (under cfgAliasDram) .write 0x91FF [P0] 0x1FF 3 ∧ bufferOf P0 = some .dram ∧
      (entryIndex P0 0x1FF).toNat < bufSize cfgAliasDram .dram ∧
      (entryIndex P0 0x1FF).toNat < bufSize cfgAliasDram .nv ∧
      ∃ t, exec (.wr 0x91FF 0xAB) (under cfgAliasDram) = .next t :=
  ⟨by decide, by decide, by unfold Reaches; decide, by decide, by decide, by decide, _, rfl⟩

theorem test_witness_LogicalHitIgnoresRelocation :
    actingLogical s0 .read 0x8010 ≠ [] ∧ (∃ t, exec (.rd 0x8010) s0 = .next t) ∧
      actingLogical s0 .write 0x8010 ≠ [] ∧ ∃ t, exec (.wr 0x8010 1) s0 = .next t :=
  ⟨by decide, ⟨_, rfl⟩, by decide, _, rfl⟩

/-- The last slot of the smallest store; slots 0 and 1 of the small alias, of an accepted configuration. -/
theorem test_witness_BankLoadTakesTheSlot :
    64 * (7 : Slot).toNat + 64 ≤ bufSize s0.cfg .nv ∧ 64 * (7 : Slot).toNat + 64 ≤ bufSize cfgAlias .nv ∧
      64 * (0 : Slot).toNat + 64 ≤ bufSize cfgSmallAlias .nv ∧
      bufSize cfgSmallAlias .nv < 64 * (1 : Slot).toNat + 64 ∧ configAccepted cfgSmallAlias = true := by decide
theorem test_witness_BankStoreFillsTheSlot :
    s0.buffersOk ∧ 64 * (7 : Slot).toNat + 64 ≤ bufSize s0.cfg .nv ∧ (under cfgSmallAlias).buffersOk ∧
      bufSize cfgSmallAlias .nv < 64 * (1 : Slot).toNat + 64 := by decide

theorem test_reset_keeps_peek (s : State) (n : Nat) : s.resetOwned.peek .nv n = s.peek .nv n := rfl

/-- V6: BSTORE 3, RESET, BLOAD 3. -/
theorem test_witness_StoreThenLoadRestoresTheBank :
    (mapped 0 0x12345678).buffersOk ∧
      64 * (3 : Slot).toNat + 64 ≤ bufSize (mapped 0 0x12345678).cfg .nv ∧
      exec (.bstore 0xFFF0 3) (mapped 0 0x12345678) = .next (stored 3 (mapped 0 0x12345678)) ∧
      64 * (3 : Slot).toNat + 64 ≤ bufSize (stored 3 (mapped 0 0x12345678)).resetOwned.cfg .nv ∧
      (∀ n, 64 * (3 : Slot).toNat ≤ n → n < 64 * (3 : Slot).toNat + 64 →
        (stored 3 (mapped 0 0x12345678)).resetOwned.peek .nv n = (stored 3 (mapped 0 0x12345678)).peek .nv n) ∧
      ∃ w, exec (.bload 0xFFF0 3) (stored 3 (mapped 0 0x12345678)).resetOwned = .next w :=
  ⟨by decide, by decide, rfl, by decide, fun n _ _ => test_reset_keeps_peek _ n, _, rfl⟩

/-- V7: BSTORE 5 twice. -/
theorem test_witness_StoringTwiceLeavesTheSameSlot :
    s0.buffersOk ∧ 64 * (5 : Slot).toNat + 64 ≤ bufSize s0.cfg .nv ∧
      exec (.bstore 0xFFF0 5) s0 = .next (stored 5 s0) ∧ (stored 5 s0).buffersOk ∧
      64 * (5 : Slot).toNat + 64 ≤ bufSize (stored 5 s0).cfg .nv ∧ (stored 5 s0).bank = s0.bank ∧
      ∃ w, exec (.bstore 0xFFF0 5) (stored 5 s0) = .next w :=
  ⟨by decide, by decide, rfl, by decide, by decide, by decide, _, rfl⟩

theorem test_witness_ControlDsrWritesTheFlag :
    s0.cfg.dsrWriteMode = .set ∧ (under cfgFlip).cfg.dsrWriteMode = .flip := by decide
theorem test_witness_ControlResetSendsOneRequest : 1 % 2 = 1 ∧ 0 % 2 = 0 ∧ 255 % 2 = 1 := by decide

/-- One state and edge for each of the four cases. -/
theorem test_witness_TickCountsDown :
    s0.wait = 0 ∧ false ≠ s0.cfg.qualEdge ∧ true = s0.cfg.qualEdge ∧ (waiting 1).wait = 1 ∧
      2 ≤ (waiting 2).wait := by decide

/-- Two transactions that hold one qualifying tick of the two that are needed, and then both. -/
theorem test_witness_ReadyReturnsAtTheLastQualifyingTick :
    1 ≤ (waiting 2).wait ∧ (waiting 2).ready = false ∧
      (∀ i ∈ [Instr.ctlDsr 1, .tick true, .lineCru true, .tick true], isAccess i = false ∧ i ≠ .reset) ∧
      [Instr.ctlDsr 1, .tick true].count (.tick s0.cfg.qualEdge) < (waiting 2).wait ∧
      (waiting 2).wait ≤ [Instr.ctlDsr 1, .tick true, .lineCru true, .tick true].count (.tick s0.cfg.qualEdge) := by
  decide

/-- A waiting state with a pending call meets the three invariants, and its step answers a next state. -/
theorem test_witness_EveryStepKeeps :
    ({ waiting 2 with inbox := [.tick true] } : State).sequencerOk ∧
      ({ waiting 2 with inbox := [.tick true] } : State).lineOk ∧
      ({ waiting 2 with inbox := [.tick true] } : State).buffersOk ∧
      ∃ t, step { waiting 2 with inbox := [.tick true] } = .next t :=
  ⟨by decide, by decide, by decide, _, rfl⟩

theorem test_witness_LaunchStateMeetsTheInvariants :
    Memory.wf [(0, 1), (0xFFF, 2)] ∧ Memory.within [(0, 1), (0xFFF, 2)] (configT true).sramSize := by decide

/-- FV1 and FV3: a state with each record set, and a next state. -/
theorem test_witness_RecordsAreStickyAndOutputsGrow :
    ∃ t, step { s0 with fault := some .nestedAccess, violation := true, inbox := [.busRead 0x7010] } = .next t :=
  ⟨_, rfl⟩

theorem test_witness_ViolationExactlyOnAnEarlyAccess :
    (∃ t, exec (.rd 0x6123) (waiting 2) = .next t) ∧ isAccess (.rd 0x6123) = true ∧
      (∃ t, exec (.lineCru true) (waiting 2) = .next t) ∧ isAccess (.lineCru true) = false :=
  ⟨⟨_, rfl⟩, rfl, ⟨_, rfl⟩, rfl⟩

theorem test_witness_RegistersHaveTheirWriters :
    (∃ t, exec (.wr 0x8010 1) s0 = .next t) ∧ Instr.wr 0x8010 1 ≠ .reset :=
  ⟨⟨_, rfl⟩, by decide⟩

/-- One access that ends well, and one that ends in a model fault. -/
theorem test_witness_AccessEventsComeInOrder :
    isAccess (.rd 0x6123) = true ∧ s0.fault = none ∧ view (fun t => t.fault) (exec (.rd 0x6123) s0) = some none ∧
      view (fun t => t.fault) (exec (.rd 0x6123) { s0 with replies := [.reenter] }) = some (some .nestedAccess) := by
  decide

/-- Each of the five accesses ends without a fault. -/
theorem test_witness_WaitCountOfEachAccess :
    [Instr.rd 0x9000, .wr 0x7010 1, .bload 0xFFF0 7, .bstore 0xFFF0 7, .bcmdIgn 0xFFF0 0xFF].all
      (fun i => view (fun t => t.fault) (exec i s0) == some none) = true := by decide

theorem test_witness_EventsHaveTheirSenders :
    (∃ t, exec (.rd 0x6123) s0 = .next t) ∧ Instr.rd 0x6123 ≠ .reset ∧
      (∀ edge, Instr.rd 0x6123 ≠ .tick edge) ∧ ∀ v, Instr.rd 0x6123 ≠ .ctlRst v :=
  ⟨⟨_, rfl⟩, by decide, by simp, by simp⟩

end Sys2Proof.Tests
end

section
/-!
The step through what it fetches (00 R10, 60 R128): what an accepted configuration fetches from an empty input and
from a call that decodes, and the step that follows.
-/

namespace Sys2Proof.Machine

/-! ### The fetch -/

theorem fetch_eq_idle {s : State} (hcfg : configAccepted s.cfg = true) (hinbox : s.inbox = []) :
    fetch s = .idle := by
  simp [fetch, hcfg, hinbox]

theorem fetch_eq_instr {s : State} {c : Call} {rest : List Call} {i : Instr} (hcfg : configAccepted s.cfg = true)
    (hinbox : s.inbox = c :: rest) (hdecode : decode s.cfg c = .instr i) :
    fetch s = .instr i { s with inbox := rest } := by
  simp [fetch, hcfg, hinbox, hdecode]

/-! ### The step -/

theorem step_eq_next_of_fetch_idle {s : State} (h : fetch s = .idle) : step s = .next s := by
  simp [step, h]

theorem step_eq_exec_of_fetch_instr {s s' : State} {i : Instr} (h : fetch s = .instr i s') :
    step s = exec i s' := by
  simp [step, h]

/-- Settles O6: the step runs what is fetched, and the fetch takes the oldest call and decodes it. -/
theorem stepRunsTheOldestCall : Obligations.StepRunsTheOldestCall := by
  intro s c rest i hcfg hinbox hdecode
  exact step_eq_exec_of_fetch_instr (fetch_eq_instr hcfg hinbox hdecode)

/-- Settles O7: an empty input is fetched as idle, which the step answers with its own state. -/
theorem idleStepChangesNothing : Obligations.IdleStepChangesNothing := by
  intro s hcfg hinbox
  exact step_eq_next_of_fetch_idle (fetch_eq_idle hcfg hinbox)

end Sys2Proof.Machine
end

section
/-!
What a step and a transaction can do, once: from a step that answers a next state to the transaction it ran, and from a
transaction to what it writes (00 R10). The invariants of section 3 of spec/10 are read off it.
-/

namespace Sys2Proof.Machine

/-! ### The step -/

/-- A step that answers a next state was idle, or ran a transaction under an accepted configuration. -/
theorem step_next_cases {s t : State} (h : step s = .next t) :
    t = s ∨ ∃ i rest, configAccepted s.cfg = true ∧ exec i { s with inbox := rest } = .next t := by
  unfold step fetch at h
  split_ifs at h with hcfg
  cases hin : s.inbox with
  | nil =>
    rw [hin] at h
    cases h
    exact .inl rfl
  | cons c rest =>
    cases hd : decode s.cfg c with
    | rejected r =>
      simp only [hin, hd] at h
      cases h
    | instr i =>
      simp only [hin, hd] at h
      exact .inr ⟨i, rest, hcfg, h⟩

/-- 00 R7(d): both wait counts of an accepted configuration are at least 1. -/
theorem waits_pos_of_configAccepted {cfg : Config} (h : configAccepted cfg = true) :
    1 ≤ cfg.waitLogical ∧ 1 ≤ cfg.waitPhysical := by
  simp only [configAccepted, Bool.and_eq_true, decide_eq_true_eq] at h
  obtain ⟨⟨⟨⟨-, hl⟩, hp⟩, -⟩, -⟩ := h
  exact ⟨hl, hp⟩

/-! ### The transaction -/

/-- What each transaction leaves: a bus access its result, a control write, a line, a counting tick or a reset the
fields it writes, and any other transaction nothing. -/
inductive ExecEffect (s : State) : Instr → State → Prop where
  | access {i : Instr} {t : State} (hi : isAccess i = true) (h : AccessResult s t) : ExecEffect s i t
  | ctlDsr (v : Nat) :
      ExecEffect s (.ctlDsr v) { s with dsrSelected := dsrLevel s.cfg.dsrWriteMode s.dsrSelected v }
  | request {v : Nat} (hv : dataBit v = true) : ExecEffect s (.ctlRst v) (s.emit .requestSoftReset)
  | lineCru (level : Bool) : ExecEffect s (.lineCru level) { s with cruMode := level }
  | linePtgen (level : Bool) : ExecEffect s (.linePtgen level) { s with ptgen := level }
  | count {edge : Bool} (hw : s.wait ≠ 0) (he : edge = s.cfg.qualEdge) : ExecEffect s (.tick edge) s.countDown
  | reset : ExecEffect s .reset s.resetOwned
  | nothing {i : Instr} (hi : isAccess i = false) (hr : i ≠ .reset) : ExecEffect s i s

theorem exec_effect {i : Instr} {s t : State} (h : exec i s = .next t) : ExecEffect s i t := by
  by_cases hi : isAccess i = true
  · exact .access hi (access_result hi h)
  cases i <;> simp only [isAccess, not_true_eq_false] at hi
  case ctlDsr v =>
    cases h
    exact .ctlDsr v
  case ctlRst v =>
    cases h
    split_ifs with hv
    · exact .request hv
    · exact .nothing rfl (by simp)
  case ctlAux ca v =>
    cases h
    exact .nothing rfl (by simp)
  case ctlOther ca v =>
    cases h
    exact .nothing rfl (by simp)
  case lineCru level =>
    cases h
    exact .lineCru level
  case linePtgen level =>
    cases h
    exact .linePtgen level
  case tick edge =>
    cases h
    split_ifs with hq
    · exact .count hq.1 hq.2
    · exact .nothing rfl (by simp)
  case reset =>
    cases h
    exact .reset

end Sys2Proof.Machine
end

section
/-!
The sequencer (10 R22, R30): what a bus access and a counting tick do to the counter and the ready line, and that
every step keeps `ready = (wait = 0)` and the counter's range.
-/

namespace Sys2Proof.Machine

theorem AccessResult.cfg {s t : State} (h : AccessResult s t) : t.cfg = s.cfg := by
  obtain ⟨mid, hw, ⟨rfl, -⟩ | ⟨-, c, n, vs, -, -, rfl⟩⟩ := h.result
  · exact hw.cfg
  · exact hw.cfg

/-- An access that faults leaves the counter and the line, any other one takes one of the two wait counts and drops
the line (43 R109, 44 R117). -/
theorem AccessResult.wait_ready {s t : State} (h : AccessResult s t) :
    (t.wait = s.wait ∧ t.ready = s.ready) ∨
      ((t.wait = s.cfg.waitLogical ∨ t.wait = s.cfg.waitPhysical) ∧ t.ready = false) := by
  obtain ⟨mid, hw, ⟨rfl, -⟩ | ⟨-, c, n, vs, hc, -, rfl⟩⟩ := h.result
  · exact .inl ⟨hw.wait, hw.ready⟩
  · exact .inr ⟨hc, rfl⟩

theorem AccessResult.keeps_sequencerOk {s t : State} (h : AccessResult s t) (hcfg : configAccepted s.cfg = true)
    (hs : s.sequencerOk) : t.sequencerOk := by
  unfold State.sequencerOk at hs ⊢
  rw [h.cfg]
  obtain ⟨hl, hp⟩ := waits_pos_of_configAccepted hcfg
  obtain ⟨hw, hr⟩ | ⟨hw, hr⟩ := h.wait_ready
  · rw [hw, hr]
    exact hs
  · have hpos : t.wait ≠ 0 := by omega
    exact ⟨by simp [hr, hpos], by omega⟩

/-- The tick that reaches 0 is the one that raises the line (43 R105). -/
theorem State.countDown_keeps_sequencerOk {s : State} (hw : s.wait ≠ 0) (hs : s.sequencerOk) :
    s.countDown.sequencerOk := by
  obtain ⟨hr, hle⟩ := hs
  unfold State.countDown
  split_ifs with h1
  · exact ⟨rfl, Nat.zero_le _⟩
  · have hrun : s.wait - 1 ≠ 0 := by omega
    exact ⟨by simp [hr, hw, hrun], (Nat.sub_le _ _).trans hle⟩

theorem exec_keeps_sequencerOk {i : Instr} {s t : State} (hcfg : configAccepted s.cfg = true) (hs : s.sequencerOk)
    (h : exec i s = .next t) : t.sequencerOk := by
  cases exec_effect h with
  | access _ ha => exact ha.keeps_sequencerOk hcfg hs
  | ctlDsr v => exact hs
  | request _ => exact hs
  | lineCru level => exact hs
  | linePtgen level => exact hs
  | count hw _ => exact State.countDown_keeps_sequencerOk hw hs
  | reset => exact ⟨rfl, Nat.zero_le _⟩
  | nothing _ _ => exact hs

/-- Settles O51: an idle step keeps the state, and every transaction under an accepted configuration, whose wait
counts are not 0, keeps the invariant. -/
theorem everyStepKeepsTheSequencer : Obligations.EveryStepKeepsTheSequencer := by
  intro s t hs h
  obtain rfl | ⟨i, rest, hcfg, hexec⟩ := step_next_cases h
  · exact hs
  · exact exec_keeps_sequencerOk (s := { s with inbox := rest }) hcfg hs hexec

end Sys2Proof.Machine
end

section
/-!
The sticky records and the growing outputs (10 R13, R26 to R28): one relation between a state and any later one.
-/

namespace Sys2Proof.Machine

/-- What a later state keeps of an earlier one: the configuration, both records once set, and the outputs so far. -/
structure Extends (s t : State) : Prop where
  cfg       : t.cfg = s.cfg
  fault     : ∀ r, s.fault = some r → t.fault = some r
  violation : s.violation = true → t.violation = true
  trace     : s.trace <+: t.trace
  returned  : s.returned <+: t.returned

theorem Extends.refl (s : State) : Extends s s :=
  ⟨rfl, fun _ h => h, id, List.prefix_rfl, List.prefix_rfl⟩

theorem Extends.trans {s t u : State} (h : Extends s t) (h' : Extends t u) : Extends s u where
  cfg := h'.cfg.trans h.cfg
  fault r hr := h'.fault r (h.fault r hr)
  violation hv := h'.violation (h.violation hv)
  trace := h.trace.trans h'.trace
  returned := h.returned.trans h'.returned

/-- A state that differs in no record and no configuration, and whose outputs are longer, is a later one. -/
theorem Extends.of_outputs {s t : State} (es : List Event) (vs : List Byte) (hcfg : t.cfg = s.cfg)
    (hf : t.fault = s.fault) (hv : t.violation = s.violation) (ht : t.trace = s.trace ++ es)
    (hr : t.returned = s.returned ++ vs) : Extends s t :=
  ⟨hcfg, fun _ h => hf.trans h, fun h => hv.trans h, ⟨es, ht.symm⟩, ⟨vs, hr.symm⟩⟩

/-- A state that differs in no record, no output and no configuration is a later one. -/
theorem Extends.of_same_outputs {s t : State} (hcfg : t.cfg = s.cfg) (hf : t.fault = s.fault)
    (hv : t.violation = s.violation) (ht : t.trace = s.trace) (hr : t.returned = s.returned) : Extends s t :=
  .of_outputs [] [] hcfg hf hv (by rw [ht, List.append_nil]) (by rw [hr, List.append_nil])

theorem checkReady_extends (s : State) : Extends s s.checkReady :=
  ⟨rfl, fun _ h => h, fun h => by simp [h], List.prefix_rfl, List.prefix_rfl⟩

theorem WorkEffect.extends {s t : State} (h : WorkEffect s t) : Extends s t := by
  obtain ⟨devs, -, ht⟩ := h.trace
  exact ⟨h.cfg, h.fault, fun hv => h.violation.trans hv, ⟨devs, ht.symm⟩, ⟨[], by rw [h.returned, List.append_nil]⟩⟩

theorem AccessResult.extends {s t : State} (h : AccessResult s t) : Extends s t := by
  obtain ⟨mid, hw, hend⟩ := h.result
  have hmid : Extends s mid := (checkReady_extends s).trans hw.extends
  obtain ⟨rfl, -⟩ | ⟨-, c, n, vs, -, -, rfl⟩ := hend
  · exact hmid
  · exact hmid.trans (.of_outputs [.notifyReady false] vs rfl rfl rfl rfl rfl)

theorem State.countDown_extends (s : State) : Extends s s.countDown := by
  unfold State.countDown
  split_ifs
  · exact .of_outputs [.notifyReady true] [] rfl rfl rfl rfl (List.append_nil _).symm
  · exact .of_same_outputs rfl rfl rfl rfl rfl

theorem exec_extends {i : Instr} {s t : State} (h : exec i s = .next t) : Extends s t := by
  cases exec_effect h with
  | access _ ha => exact ha.extends
  | ctlDsr v => exact .of_same_outputs rfl rfl rfl rfl rfl
  | request _ => exact .of_outputs [.requestSoftReset] [] rfl rfl rfl rfl (List.append_nil _).symm
  | lineCru level => exact .of_same_outputs rfl rfl rfl rfl rfl
  | linePtgen level => exact .of_same_outputs rfl rfl rfl rfl rfl
  | count _ _ => exact s.countDown_extends
  | reset => exact .of_outputs [.notifyReady true] [] rfl rfl rfl rfl (List.append_nil _).symm
  | nothing _ _ => exact .refl s

theorem step_extends {s t : State} (h : step s = .next t) : Extends s t := by
  obtain rfl | ⟨i, rest, -, hexec⟩ := step_next_cases h
  · exact .refl t
  · obtain ⟨hcfg, hf, hv, ht, hr⟩ := exec_extends hexec
    exact ⟨hcfg, hf, hv, ht, hr⟩

/-- Settles O55: the state after a step is a later one, in the sense of `Extends`. -/
theorem recordsAreStickyAndOutputsGrow : Obligations.RecordsAreStickyAndOutputsGrow := by
  intro s t h
  obtain ⟨hcfg, hf, hv, ⟨es, ht⟩, ⟨vs, hr⟩⟩ := step_extends h
  exact ⟨hcfg, hf, hv, ⟨es, ht.symm⟩, ⟨vs, hr.symm⟩⟩

end Sys2Proof.Machine
end

section
/-!
The writers of the bank table and of the three mode flags (10 R18 to R21).
-/

namespace Sys2Proof.Machine

theorem AccessResult.flags {s t : State} (h : AccessResult s t) :
    t.dsrSelected = s.dsrSelected ∧ t.cruMode = s.cruMode ∧ t.ptgen = s.ptgen := by
  obtain ⟨mid, hw, ⟨rfl, -⟩ | ⟨-, c, n, vs, -, -, rfl⟩⟩ := h.result
  · exact ⟨hw.dsrSelected, hw.cruMode, hw.ptgen⟩
  · exact ⟨hw.dsrSelected, hw.cruMode, hw.ptgen⟩

theorem ActFlow.effect_of_ok {α : Type} {s t : State} {x : Flow α} (hx : ActFlow s x) {a : α} (h : x = .ok a t) :
    ActEffect s t := by
  subst h
  exact hx.effect

theorem ActFlow.effect_of_faulted {α : Type} {s t : State} {x : Flow α} (hx : ActFlow s x) (h : x = .faulted t) :
    ActEffect s t := by
  subst h
  exact hx.effect

theorem readFallback_bank (la : LAddr) (s : State) : (readFallback la s).bank = s.bank := by
  have hP := readPhysical_actFlow la s
  unfold readFallback
  split
  case h_1 t h => exact (hP.effect_of_faulted h).bank
  case h_2 v t h => exact (hP.effect_of_ok h).bank
  case h_3 t h => exact (hP.effect_of_ok h).bank

theorem busRead_bank (la : LAddr) (s : State) : (busRead la s).bank = s.bank := by
  have hL := readLogical_actFlow la s.checkReady
  unfold busRead
  split
  case h_1 t h => exact (hL.effect_of_faulted h).bank
  case h_2 v t h => exact (hL.effect_of_ok h).bank
  case h_3 t h => exact (readFallback_bank la t).trans (hL.effect_of_ok h).bank

theorem writeFallback_bank (la : LAddr) (d : Byte) (s : State) : (writeFallback la d s).bank = s.bank := by
  have hP := writePhysical_actFlow la d s
  unfold writeFallback
  split
  case h_1 t h => exact (hP.effect_of_faulted h).bank
  case h_2 r t h => exact (hP.effect_of_ok h).bank

theorem busWrite_bank (la : LAddr) (d : Byte) (s : State) : (busWrite la d s).bank = s.bank := by
  have hL := writeLogical_actFlow la d s.checkReady
  unfold busWrite
  split
  case h_1 t h => exact (hL.effect_of_faulted h).bank
  case h_2 t h => exact (hL.effect_of_ok h).bank
  case h_3 t h => exact (writeFallback_bank la d t).trans (hL.effect_of_ok h).bank

/-- A bank command leaves the bank table if its work does. -/
theorem bankCommand_bank {work : State → Flow Unit} (hw : ∀ s, (work s).state.bank = s.bank) (s : State) :
    (bankCommand work s).bank = s.bank := by
  have hb := hw s.checkReady
  unfold bankCommand
  split
  case h_1 t h =>
    rw [h] at hb
    exact hb
  case h_2 t h =>
    rw [h] at hb
    exact hb

/-- BLOAD is the only access that writes the bank table. -/
theorem access_bank {i : Instr} (hi : isAccess i = true) (hb : ∀ la k, i ≠ .bload la k) {s t : State}
    (h : exec i s = .next t) : t.bank = s.bank := by
  cases i <;> simp only [isAccess, reduceCtorEq] at hi
  case rd la =>
    cases h
    exact busRead_bank la s
  case wr la d =>
    cases h
    exact busWrite_bank la d s
  case bload la k => exact absurd rfl (hb la k)
  case bstore la k =>
    cases h
    exact bankCommand_bank (storeEntries_bank k _) s
  case bcmdIgn la d =>
    cases h
    exact bankCommand_bank (fun _ => rfl) s

theorem State.countDown_registers (s : State) :
    s.countDown.bank = s.bank ∧ s.countDown.dsrSelected = s.dsrSelected ∧ s.countDown.cruMode = s.cruMode ∧
      s.countDown.ptgen = s.ptgen := by
  unfold State.countDown
  split_ifs
  · exact ⟨rfl, rfl, rfl, rfl⟩
  · exact ⟨rfl, rfl, rfl, rfl⟩

/-- Settles O57: of the transactions other than RESET, only BLOAD, CTL_DSR, LINE_CRU and LINE_PTGEN write one of the
four, each its own. -/
theorem registersHaveTheirWriters : Obligations.RegistersHaveTheirWriters := by
  intro i s t h hreset
  cases exec_effect h with
  | access hi ha =>
    obtain ⟨hd, hc, hp⟩ := ha.flags
    exact ⟨fun hb => access_bank hi hb h, fun _ => hd, fun _ => hc, fun _ => hp⟩
  | ctlDsr v => exact ⟨fun _ => rfl, fun hv => absurd rfl (hv v), fun _ => rfl, fun _ => rfl⟩
  | request _ => exact ⟨fun _ => rfl, fun _ => rfl, fun _ => rfl, fun _ => rfl⟩
  | lineCru level => exact ⟨fun _ => rfl, fun _ => rfl, fun hl => absurd rfl (hl level), fun _ => rfl⟩
  | linePtgen level => exact ⟨fun _ => rfl, fun _ => rfl, fun _ => rfl, fun hl => absurd rfl (hl level)⟩
  | count _ _ =>
    obtain ⟨hb, hd, hc, hp⟩ := s.countDown_registers
    exact ⟨fun _ => hb, fun _ => hd, fun _ => hc, fun _ => hp⟩
  | reset => exact absurd rfl hreset
  | nothing _ _ => exact ⟨fun _ => rfl, fun _ => rfl, fun _ => rfl, fun _ => rfl⟩

end Sys2Proof.Machine
end

section
/-!
The scan through its acting entries (40 R69), and the events of a bus access (44 R118).
-/

namespace Sys2Proof.Machine

/-! ### The scan runs its acting entries -/

theorem scan_eq_actAll {β : Type} (hit : Entry → Bool) (act : Entry → State → Flow β) (L : List Entry)
    (last : Option β) (s : State) : scan hit act L last s = actAll act (acting hit L) last s := by
  induction L generalizing last s with
  | nil => rfl
  | cons e es ih =>
    unfold scan acting
    split_ifs with hhit hstop
    · rfl
    · simp only [ih, actAll]
    · exact ih last s

/-- Actions one after another that leave no value were none. -/
theorem eq_nil_of_actAll_ok_none {β : Type} {act : Entry → State → Flow β} {es : List Entry} {last : Option β}
    {s t : State} (h : actAll act es last s = .ok none t) : es = [] := by
  induction es generalizing last s with
  | nil => rfl
  | cons e es ih =>
    unfold actAll at h
    cases hx : act e s with
    | faulted u =>
      rw [hx] at h
      cases h
    | ok r u =>
      rw [hx] at h
      obtain rfl := ih h
      cases h

/-- The scan finds nothing exactly where no entry acts, and then it changes nothing (40 R65). -/
theorem scan_eq_ok_none_iff {β : Type} {hit : Entry → Bool} {act : Entry → State → Flow β} {L : List Entry}
    {s t : State} : scan hit act L none s = .ok none t ↔ acting hit L = [] ∧ t = s := by
  rw [scan_eq_actAll]
  constructor
  · intro h
    have hnil := eq_nil_of_actAll_ok_none h
    rw [hnil] at h
    cases h
    exact ⟨hnil, rfl⟩
  · rintro ⟨hnil, rfl⟩
    rw [hnil]
    rfl

theorem scan_trace {β : Type} {hit : Entry → Bool} {act : Entry → State → Flow β} {ev : Entry → List Event}
    (h : ∀ e s, TraceFlow s (act e s) (ev e)) (L : List Entry) (s : State) :
    TraceFlow s (scan hit act L none s) ((acting hit L).flatMap ev) := by
  rw [scan_eq_actAll]
  exact actAll_trace h _ _ s

/-! ### The events of an access -/

theorem readEvents_isDeviceEvent (a : PAddr) (e : Entry) : ∀ v ∈ readEvents a e, isDeviceEvent v = true := by
  unfold readEvents
  split
  · simp
  · simp [isDeviceEvent]

theorem writeEvents_isDeviceEvent (a : PAddr) (d : Byte) (e : Entry) :
    ∀ v ∈ writeEvents a d e, isDeviceEvent v = true := by
  unfold writeEvents
  split
  · simp
  · simp [isDeviceEvent]

/-- The events of a cascade are device events if those of its entries are. -/
theorem cascade_isDeviceEvent {evL evP : Entry → List Event} (hL : ∀ e, ∀ v ∈ evL e, isDeviceEvent v = true)
    (hP : ∀ e, ∀ v ∈ evP e, isDeviceEvent v = true) (L P : List Entry) :
    ∀ v ∈ L.flatMap evL ++ (if L = [] then P.flatMap evP else []), isDeviceEvent v = true := by
  intro v hv
  obtain hv | hv := List.mem_append.mp hv
  · obtain ⟨e, -, he⟩ := List.mem_flatMap.mp hv
    exact hL e v he
  · split_ifs at hv
    · obtain ⟨e, -, he⟩ := List.mem_flatMap.mp hv
      exact hP e v he
    · cases hv

theorem accessEvents_isDeviceEvent (s : State) (i : Instr) : ∀ e ∈ accessEvents s i, isDeviceEvent e = true := by
  cases i
  case rd la => exact cascade_isDeviceEvent (readEvents_isDeviceEvent _) (readEvents_isDeviceEvent _) _ _
  case wr la d => exact cascade_isDeviceEvent (writeEvents_isDeviceEvent _ d) (writeEvents_isDeviceEvent _ d) _ _
  all_goals simp [accessEvents]

/-- An access from `s` to `t` with the device events `evs`: it ends well with all of them and the notification, or
in a fault with a first part of them, the counter and the line as they were (44 R117, R118). -/
def AccessEmits (s t : State) (evs : List Event) : Prop :=
  (t.fault = s.fault ∧ t.trace = s.trace ++ evs ++ [.notifyReady false] ∧ t.ready = false) ∨
    (t.fault ≠ none ∧ t.wait = s.wait ∧ t.ready = s.ready ∧
      ∃ devs : List Event, devs <+: evs ∧ t.trace = s.trace ++ devs)

section Ends

variable {α : Type} {s t : State} {x : Flow α} {evs : List Event}

theorem AccessEmits.of_faulted (hx : WorkFlow s.checkReady x) (he : TraceFlow s.checkReady x evs)
    (h : x = .faulted t) : AccessEmits s t evs := by
  subst h
  exact .inr ⟨hx.faulted t rfl, hx.effect.wait, hx.effect.ready, he.faulted t rfl⟩

/-- What follows the work of an access: the notification, the line dropped, and no fault. -/
theorem AccessEmits.of_ok (hx : WorkFlow s.checkReady x) (he : TraceFlow s.checkReady x evs) {a : α}
    (h : x = .ok a t) {u : State} (hf : u.fault = t.fault) (ht : u.trace = t.trace ++ [.notifyReady false])
    (hr : u.ready = false) : AccessEmits s u evs :=
  .inl ⟨hf.trans (hx.ok a t h), by rw [ht, he.ok a t h]; rfl, hr⟩

end Ends

/-- On a logical miss the access is its fallback, from the state that it checked (44 R112, R113). -/
theorem busRead_of_miss {la : LAddr} {s : State} (h : actingLogical s .read la = []) :
    busRead la s = readFallback la s.checkReady := by
  have hmiss : readLogical la s.checkReady = .ok none s.checkReady := scan_eq_ok_none_iff.mpr ⟨h, rfl⟩
  simp only [busRead, hmiss]

theorem busWrite_of_miss {la : LAddr} {d : Byte} {s : State} (h : actingLogical s .write la = []) :
    busWrite la d s = writeFallback la d s.checkReady := by
  have hmiss : writeLogical la d s.checkReady = .ok none s.checkReady := scan_eq_ok_none_iff.mpr ⟨h, rfl⟩
  simp only [busWrite, hmiss]

theorem readFallback_emits (la : LAddr) (s : State) :
    AccessEmits s (readFallback la s.checkReady)
      ((actingPhysical s .read la).flatMap (readEvents (relocate s.bank la))) := by
  have hw := (readPhysical_actFlow la s.checkReady).work
  have he := scan_trace (hit := physicalHit .read (relocate s.bank la)) (actRead_trace (relocate s.bank la))
    s.cfg.physical s.checkReady
  unfold readFallback
  split
  case h_1 t h => exact .of_faulted hw he h
  case h_2 v t h => exact .of_ok hw he h rfl rfl rfl
  case h_3 t h => exact .of_ok hw he h rfl rfl rfl

theorem writeFallback_emits (la : LAddr) (d : Byte) (s : State) :
    AccessEmits s (writeFallback la d s.checkReady)
      ((actingPhysical s .write la).flatMap (writeEvents (relocate s.bank la) d)) := by
  have hw := (writePhysical_actFlow la d s.checkReady).work
  have he := scan_trace (hit := physicalHit .write (relocate s.bank la)) (actWrite_trace (relocate s.bank la) d)
    s.cfg.physical s.checkReady
  unfold writeFallback
  split
  case h_1 t h => exact .of_faulted hw he h
  case h_2 r t h => exact .of_ok hw he h rfl rfl rfl

theorem busRead_emits (la : LAddr) (s : State) : AccessEmits s (busRead la s) (accessEvents s (.rd la)) := by
  by_cases hmiss : actingLogical s .read la = []
  · rw [busRead_of_miss hmiss]
    simpa [accessEvents, hmiss] using readFallback_emits la s
  · have hw := (readLogical_actFlow la s.checkReady).work
    have he := scan_trace (hit := logicalHit s .read la) (actRead_trace (widen la)) s.cfg.logical s.checkReady
    simp only [accessEvents, if_neg hmiss, List.append_nil]
    unfold busRead
    split
    case h_1 t h => exact .of_faulted hw he h
    case h_2 v t h => exact .of_ok hw he h rfl rfl rfl
    case h_3 t h => exact absurd (scan_eq_ok_none_iff.mp h).1 hmiss

theorem busWrite_emits (la : LAddr) (d : Byte) (s : State) :
    AccessEmits s (busWrite la d s) (accessEvents s (.wr la d)) := by
  by_cases hmiss : actingLogical s .write la = []
  · rw [busWrite_of_miss hmiss]
    simpa [accessEvents, hmiss] using writeFallback_emits la d s
  · have hw := (writeLogical_actFlow la d s.checkReady).work
    have he := scan_trace (hit := logicalHit s .write la) (actWrite_trace (widen la) d) s.cfg.logical s.checkReady
    simp only [accessEvents, if_neg hmiss, List.append_nil]
    unfold busWrite
    split
    case h_1 t h => exact .of_faulted hw he h
    case h_2 t h => exact .of_ok hw he h rfl rfl rfl
    case h_3 t h => exact absurd (scan_eq_ok_none_iff.mp h).1 hmiss

theorem bankCommand_emits {work : State → Flow Unit} (hw : ∀ s, WorkFlow s (work s))
    (he : ∀ s, TraceFlow s (work s) []) (s : State) : AccessEmits s (bankCommand work s) [] := by
  unfold bankCommand
  split
  case h_1 t h => exact .of_faulted (hw _) (he _) h
  case h_2 t h => exact .of_ok (hw _) (he _) h rfl rfl rfl

theorem access_emits {i : Instr} (hi : isAccess i = true) {s t : State} (h : exec i s = .next t) :
    AccessEmits s t (accessEvents s i) := by
  cases i <;> simp only [isAccess, reduceCtorEq] at hi
  case rd la =>
    cases h
    exact busRead_emits la s
  case wr la d =>
    cases h
    exact busWrite_emits la d s
  case bload la k =>
    cases h
    exact bankCommand_emits (loadEntries_workFlow k _) (loadEntries_trace k _) s
  case bstore la k =>
    cases h
    exact bankCommand_emits (storeEntries_workFlow k _) (storeEntries_trace k _) s
  case bcmdIgn la d =>
    cases h
    exact bankCommand_emits (fun s => .pure _ (.refl s) rfl) (fun _ => .pure _ (by simp)) s

/-- Settles O58: from a state without a fault record, the record after the access tells its two ends apart. -/
theorem accessEventsComeInOrder : Obligations.AccessEventsComeInOrder := by
  intro i s t hi hs h
  refine ⟨accessEvents_isDeviceEvent s i, fun hf => ?_, fun hf => ?_⟩
  · obtain ⟨-, ht, hr⟩ | ⟨hf', -⟩ := access_emits hi h
    · exact ⟨ht, hr⟩
    · exact absurd hf hf'
  · obtain ⟨hf', -⟩ | ⟨-, hw, hr, devs, hpre, ht⟩ := access_emits hi h
    · exact absurd (hf'.trans hs) hf
    · exact ⟨devs, hpre, ht, hw, hr⟩

end Sys2Proof.Machine
end

section
/-!
RESET, the reset values and the launch state (70 R133, R135; 10 R30).
-/

namespace Sys2Proof.Machine

/-- Settles O48: RESET is the reset of the owned state. -/
theorem resetWritesTheOwnedState : Obligations.ResetWritesTheOwnedState := by
  intro s
  rfl

/-- Settles O49: the bank table is sixteen zero words, and each other register stands in the launch state. -/
theorem resetStateHasTheResetValues : Obligations.ResetStateHasTheResetValues :=
  ⟨fun i => Vector.getElem_replicate i.isLt, rfl, rfl, rfl, rfl, rfl, rfl, rfl⟩

theorem State.launch_sequencerOk (cfg : Config) (sram dram nv : Memory) :
    (State.launch cfg sram dram nv).sequencerOk :=
  ⟨rfl, Nat.zero_le _⟩

theorem State.launch_lineOk (cfg : Config) (sram dram nv : Memory) : (State.launch cfg sram dram nv).lineOk := rfl

/-- Settles O54: the counter of a launch state is 0 and its line high, its trace is empty, and its buffers are the
given contents. -/
theorem launchStateMeetsTheInvariants : Obligations.LaunchStateMeetsTheInvariants := by
  refine ⟨fun cfg sram dram nv hs hd hn bs bd bn => ?_, rfl⟩
  exact ⟨State.launch_sequencerOk cfg sram dram nv, State.launch_lineOk cfg sram dram nv, ⟨hs, hd, hn⟩, bs, bd, bn⟩

end Sys2Proof.Machine
end

section
/-!
An access through the entries that it reaches (44 R112 to R115): their actions one after another, then the wait of
their level. What a buffer's entry does on a read and on a write, and what a write leaves in the buffer (20 R40).
-/

namespace Sys2Proof.Machine

/-! ### The cascade -/

theorem readLogical_eq_actAll (la : LAddr) (s : State) :
    readLogical la s.checkReady = actAll (actRead (widen la)) (actingLogical s .read la) none s.checkReady :=
  scan_eq_actAll _ _ _ _ _

theorem writeLogical_eq_actAll (la : LAddr) (d : Byte) (s : State) :
    writeLogical la d s.checkReady = actAll (actWrite (widen la) d) (actingLogical s .write la) none s.checkReady :=
  scan_eq_actAll _ _ _ _ _

theorem readPhysical_eq_actAll (la : LAddr) (s : State) :
    readPhysical la s.checkReady =
      actAll (actRead (relocate s.bank la)) (actingPhysical s .read la) none s.checkReady :=
  scan_eq_actAll _ _ _ _ _

theorem writePhysical_eq_actAll (la : LAddr) (d : Byte) (s : State) :
    writePhysical la d s.checkReady =
      actAll (actWrite (relocate s.bank la) d) (actingPhysical s .write la) none s.checkReady :=
  scan_eq_actAll _ _ _ _ _

/-- A read whose actions end well takes their level's wait and returns the last value, at either level. -/
theorem busRead_of_actAll_ok {s t : State} {la : LAddr} {es : List Entry} {a : PAddr} {c : Nat} {v : Byte}
    (hr : Reaches s .read la es a c) (h : actAll (actRead a) es none s.checkReady = .ok (some v) t) :
    busRead la s = (t.waitSet c).returnByte v := by
  obtain ⟨-, ⟨hes, rfl, rfl⟩ | ⟨hmiss, hes, rfl, rfl⟩⟩ := hr
  · rw [← hes, ← readLogical_eq_actAll] at h
    have hcfg : t.cfg = s.cfg := ((readLogical_actFlow la _).effect_of_ok h).cfg
    simp only [busRead, h, hcfg]
  · rw [← hes, ← readPhysical_eq_actAll] at h
    have hcfg : t.cfg = s.cfg := ((readPhysical_actFlow la _).effect_of_ok h).cfg
    simp only [busRead_of_miss hmiss, readFallback, h, hcfg]

/-- A write whose actions end well takes their level's wait, at either level. -/
theorem busWrite_of_actAll_ok {s t : State} {la : LAddr} {d : Byte} {es : List Entry} {a : PAddr} {c : Nat}
    (hr : Reaches s .write la es a c) (h : actAll (actWrite a d) es none s.checkReady = .ok (some ()) t) :
    busWrite la d s = t.waitSet c := by
  obtain ⟨-, ⟨hes, rfl, rfl⟩ | ⟨hmiss, hes, rfl, rfl⟩⟩ := hr
  · rw [← hes, ← writeLogical_eq_actAll] at h
    have hcfg : t.cfg = s.cfg := ((writeLogical_actFlow la d _).effect_of_ok h).cfg
    simp only [busWrite, h, hcfg]
  · rw [← hes, ← writePhysical_eq_actAll] at h
    have hcfg : t.cfg = s.cfg := ((writePhysical_actFlow la d _).effect_of_ok h).cfg
    simp only [busWrite_of_miss hmiss, writeFallback, h, hcfg]

/-! ### Actions one after another -/

theorem actAll_singleton {β : Type} {act : Entry → State → Flow β} {e : Entry} {s t : State} {r : β}
    (h : act e s = .ok r t) (last : Option β) : actAll act [e] last s = .ok (some r) t := by
  simp only [actAll, h, Flow.bind]

/-- Actions that each give `r` and change nothing do so together. -/
theorem actAll_of_unchanged {β : Type} {act : Entry → State → Flow β} {es : List Entry} {s : State} {r : β}
    (hne : es ≠ []) (h : ∀ e ∈ es, act e s = .ok r s) (last : Option β) :
    actAll act es last s = .ok (some r) s := by
  induction es generalizing last with
  | nil => exact absurd rfl hne
  | cons e es ih =>
    obtain ⟨he, hes⟩ := List.forall_mem_cons.mp h
    simp only [actAll, he, Flow.bind]
    by_cases hnil : es = []
    · rw [hnil, actAll]
    · exact ih hnil hes _

/-! ### The actions of a buffer's entry, and of one that drops writes -/

theorem actRead_of_bufferOf {e : Entry} {b : Buf} (h : bufferOf e = some b) (a : PAddr) (s : State) :
    actRead a e s = memRead b (entryIndex e a).toNat s := by
  unfold bufferOf at h
  split at h
  case h_1 hk =>
    cases h
    simp only [actRead, hk]
  case h_2 hk =>
    cases h
    simp only [actRead, hk]
  case h_3 => cases h

theorem actWrite_of_bufferOf {e : Entry} {b : Buf} (h : bufferOf e = some b) (a : PAddr) (d : Byte) (s : State) :
    actWrite a d e s = memWrite b (entryIndex e a).toNat d s := by
  unfold bufferOf at h
  split at h
  case h_1 hk =>
    cases h
    simp only [actWrite, hk]
  case h_2 hk =>
    cases h
    simp only [actWrite, hk]
  case h_3 => cases h

/-- 41 R77, R78. -/
theorem actWrite_of_dropsWrites {e : Entry} (h : dropsWrites e = true) (a : PAddr) (d : Byte) (s : State) :
    actWrite a d e s = .ok () s := by
  unfold dropsWrites at h
  split at h
  case h_1 hk => simp only [actWrite, hk]
  case h_2 hk => simp only [actWrite, hk]
  case h_3 hk => simp only [actWrite, hk]
  case h_4 hk => simp only [actWrite, hk]
  case h_5 => cases h

/-! ### An access to a buffer -/

/-- A read that only an entry of the buffer `b` takes returns the byte at its index. -/
theorem busRead_of_buffer {s : State} {la : LAddr} {e : Entry} {a : PAddr} {c : Nat} {b : Buf}
    (hr : Reaches s .read la [e] a c) (hb : bufferOf e = some b) (hi : (entryIndex e a).toNat < bufSize s.cfg b) :
    busRead la s = (s.served c).returnByte (s.peek b (entryIndex e a).toNat) := by
  have hact : actRead a e s.checkReady = .ok (s.peek b (entryIndex e a).toNat) s.checkReady := by
    rw [actRead_of_bufferOf hb, memRead, State.checkReady_cfg, if_pos hi, State.checkReady_peek]
  rw [busRead_of_actAll_ok hr (actAll_singleton hact none), State.served_eq]

/-- A write that only an entry of the buffer `b` takes stores the byte at its index. -/
theorem busWrite_of_buffer {s : State} {la : LAddr} {d : Byte} {e : Entry} {a : PAddr} {c : Nat} {b : Buf}
    (hr : Reaches s .write la [e] a c) (hb : bufferOf e = some b) (hi : (entryIndex e a).toNat < bufSize s.cfg b) :
    busWrite la d s = (s.checkReady.poke b (entryIndex e a).toNat d).waitSet c := by
  have hact : actWrite a d e s.checkReady = .ok () (s.checkReady.poke b (entryIndex e a).toNat d) := by
    rw [actWrite_of_bufferOf hb, memWrite, State.checkReady_cfg, if_pos hi]
  exact busWrite_of_actAll_ok hr (actAll_singleton hact none)

section BufferWrite

variable {s : State} {la : LAddr} {d : Byte} {e : Entry} {a : PAddr} {c : Nat} {b : Buf}
  (hr : Reaches s .write la [e] a c) (hb : bufferOf e = some b) (hi : (entryIndex e a).toNat < bufSize s.cfg b)

include hr hb hi

theorem busWrite_peek_same (hs : s.buffersOk) : (busWrite la d s).peek b (entryIndex e a).toNat = d := by
  have hs' : s.checkReady.buffersOk := hs
  rw [busWrite_of_buffer hr hb hi, State.waitSet_peek, State.peek_poke_same hs']

/-- The write leaves every other index, whichever buffer it is read through. -/
theorem busWrite_peek_other {n : Nat} (hn : n ≠ (entryIndex e a).toNat) (b' : Buf) :
    (busWrite la d s).peek b' n = s.peek b' n := by
  rw [busWrite_of_buffer hr hb hi, State.waitSet_peek, State.peek_poke_other _ _ _ hn, State.checkReady_peek]

end BufferWrite

/-- Two buffers in one array hold the same bytes (10 R24). -/
theorem State.peek_eq_of_bufHome_eq {s : State} {b b' : Buf} (h : bufHome s.cfg b = bufHome s.cfg b') (i : Nat) :
    s.peek b i = s.peek b' i := by
  rw [State.peek, State.peek, h]

theorem bufHome_nv_eq_of_nvAlias {cfg : Config} {b : Buf}
    (h : (cfg.nvAlias = some .sram ∧ b = .sram) ∨ (cfg.nvAlias = some .dram ∧ b = .dram)) :
    bufHome cfg .nv = bufHome cfg b := by
  obtain ⟨hstore, rfl⟩ | ⟨hstore, rfl⟩ := h
  · simp only [bufHome, hstore]
  · simp only [bufHome, hstore]

/-! ### The statements -/

/-- Settles O29: each acting entry drops the write, so their actions change nothing and the access takes their
level's wait. -/
theorem writeToRomIsDropped : Obligations.WriteToRomIsDropped := by
  intro s la d es a c hr hdrop
  have hall : actAll (actWrite a d) es none s.checkReady = .ok (some ()) s.checkReady :=
    actAll_of_unchanged hr.1 (fun e he => actWrite_of_dropsWrites (hdrop e he) a d _) none
  exact congrArg Host.Outcome.next (busWrite_of_actAll_ok hr hall)

/-- Settles O35: the write leaves the byte at its index, the states between keep it, and the read returns what
stands at the same index of the same buffer. -/
theorem readAfterWriteReturnsTheByte : Obligations.ReadAfterWriteReturnsTheByte := by
  intro s t u w la la' d e e' a a' c c' b hs hr hb hi ht hkeep hr' hb' hidx hi' hw
  cases ht
  cases hw
  have hbyte : u.peek b (entryIndex e' a').toNat = d := by
    rw [hidx, hkeep, busWrite_peek_same hr hb hi hs]
  rw [busRead_of_buffer hr' hb' hi', hbyte, State.returnByte_returned, State.served_returned]

/-- Settles O36: the store stands in the array of the buffer that the write reaches. -/
theorem aliasedStoreSeesBusWrites : Obligations.AliasedStoreSeesBusWrites := by
  intro s t la d e a c b hstore hs hr hb hi ht
  cases ht
  refine ⟨fun _ => ?_, fun n _ hn => busWrite_peek_other hr hb hi hn .nv⟩
  have hcfg : (busWrite la d s).cfg = s.cfg := (busWrite_result la d s).cfg
  rw [State.peek_eq_of_bufHome_eq (b' := b) (by rw [hcfg, bufHome_nv_eq_of_nvAlias hstore]),
    busWrite_peek_same hr hb hi hs]

end Sys2Proof.Machine
end

section
/-!
The frame of a read (20 R38, 41 R81): no array changes, and what `AccessResult` says of any bus access.
-/

namespace Sys2Proof.Machine

theorem Flow.array_of_ok {α : Type} {x : Flow α} {m : Memory} {b : Buf} (hx : x.state.array b = m) {r : α}
    {t : State} (h : x = .ok r t) : t.array b = m := by
  subst h
  exact hx

theorem Flow.array_of_faulted {α : Type} {x : Flow α} {m : Memory} {b : Buf} (hx : x.state.array b = m) {t : State}
    (h : x = .faulted t) : t.array b = m := by
  subst h
  exact hx

/-- A scan of reads stores nothing. -/
theorem scanRead_array (hit : Entry → Bool) (a : PAddr) (L : List Entry) (s : State) (b : Buf) :
    (scan hit (actRead a) L none s).state.array b = s.array b :=
  scan_keeps (P := fun t => t.array b = s.array b)
    (fun e _ _ t ht => (actRead_arrays a e t b).trans ht) none rfl

theorem readFallback_array (la : LAddr) (s : State) (b : Buf) : (readFallback la s).array b = s.array b := by
  have hP : (readPhysical la s).state.array b = s.array b := scanRead_array _ _ _ s b
  unfold readFallback
  split
  case h_1 t h => exact Flow.array_of_faulted hP h
  case h_2 v t h => simpa using Flow.array_of_ok hP h
  case h_3 t h => simpa using Flow.array_of_ok hP h

theorem busRead_array (la : LAddr) (s : State) (b : Buf) : (busRead la s).array b = s.array b := by
  have hL : (readLogical la s.checkReady).state.array b = s.array b :=
    (scanRead_array _ _ _ _ b).trans (s.checkReady_array b)
  unfold busRead
  split
  case h_1 t h => exact Flow.array_of_faulted hL h
  case h_2 v t h => simpa using Flow.array_of_ok hL h
  case h_3 t h => exact (readFallback_array la t b).trans (Flow.array_of_ok hL h)

theorem AccessResult.inbox {s t : State} (h : AccessResult s t) : t.inbox = s.inbox := by
  obtain ⟨mid, hw, ⟨rfl, -⟩ | ⟨-, c, n, vs, -, -, rfl⟩⟩ := h.result
  · exact hw.inbox
  · exact hw.inbox

/-- An access returns at most one byte. -/
theorem AccessResult.returned {s t : State} (h : AccessResult s t) :
    t.returned = s.returned ∨ ∃ v, t.returned = s.returned ++ [v] := by
  obtain ⟨mid, hw, ⟨rfl, -⟩ | ⟨-, c, n, vs, -, hlen, rfl⟩⟩ := h.result
  · exact .inl hw.returned
  · have hmid : mid.returned = s.returned := hw.returned
    obtain rfl | ⟨v, rfl⟩ : vs = [] ∨ ∃ v, vs = [v] := by
      rwa [Nat.le_one_iff_eq_zero_or_eq_one, List.length_eq_zero_iff, List.length_eq_one_iff] at hlen
    · exact .inl (by simp [hmid])
    · exact .inr ⟨v, by simp [hmid]⟩

/-- Settles O27: the bank table and the arrays by the frame of RD, the rest by the shape of any access. -/
theorem readFrame : Obligations.ReadFrame := by
  intro s t la h
  cases h
  have hres := busRead_result la s
  obtain ⟨hdsr, hcru, hptgen⟩ := hres.flags
  exact ⟨hres.cfg, busRead_bank la s, hdsr, hcru, hptgen, busRead_array la s .sram, busRead_array la s .dram,
    busRead_array la s .nv, hres.inbox, hres.returned, hres.wait_ready⟩

end Sys2Proof.Machine
end

section
/-!
The payload of a bank command (30 R48 to R50): a payload built from a slot and a direction has these two fields, a
valid one is built from its own, and both say what they do in numbers too.
-/

namespace Sys2Proof.Machine

/-! ### Payloads as numbers -/

/-- Payload `0000kkkl` is the number `2k + l`. -/
theorem payloadOf_toNat (k : Slot) (isLoad : Bool) : (payloadOf k isLoad).toNat = 2 * k.toNat + isLoad.toNat := by
  calc (payloadOf k isLoad).toNat
    _ = (0#4 ++ k).toNat <<< 1 ||| (BitVec.ofBool isLoad).toNat := BitVec.toNat_append _ _
    _ = k.toNat <<< 1 ||| isLoad.toNat := by rw [BitVec.toNat_append]; simp
    _ = k.toNat <<< 1 + isLoad.toNat := (Nat.shiftLeft_add_eq_or_of_lt isLoad.toNat_lt k.toNat).symm
    _ = 2 * k.toNat + isLoad.toNat := by rw [Nat.shiftLeft_eq, pow_one, Nat.mul_comm]

theorem payloadOf_eq_ofNat (k : Slot) (isLoad : Bool) :
    payloadOf k isLoad = BitVec.ofNat 8 (2 * k.toNat + isLoad.toNat) := by
  rw [← payloadOf_toNat, BitVec.ofNat_toNat, BitVec.setWidth_eq]

theorem payloadValid_iff (d : Byte) : payloadValid d = true ↔ d.toNat < 16 := by
  simp only [payloadValid, beq_iff_eq, ← BitVec.toNat_inj, BitVec.extractLsb'_toNat, BitVec.toNat_ofNat,
    Nat.shiftRight_eq_div_pow]
  omega

theorem payloadSlot_toNat (d : Byte) : (payloadSlot d).toNat = d.toNat / 2 % 8 := by
  simp [payloadSlot, Nat.shiftRight_eq_div_pow]

theorem payloadIsLoad_toNat (d : Byte) : (payloadIsLoad d).toNat = d.toNat % 2 := by
  rw [payloadIsLoad, BitVec.getLsbD, Nat.toNat_testBit, pow_zero, Nat.div_one]

/-! ### The fields of a built payload -/

@[simp] theorem payloadValid_payloadOf (k : Slot) (isLoad : Bool) : payloadValid (payloadOf k isLoad) = true := by
  rw [payloadValid_iff, payloadOf_toNat]
  have := isLoad.toNat_lt
  omega

@[simp] theorem payloadSlot_payloadOf (k : Slot) (isLoad : Bool) : payloadSlot (payloadOf k isLoad) = k := by
  apply BitVec.eq_of_toNat_eq
  rw [payloadSlot_toNat, payloadOf_toNat]
  have := isLoad.toNat_lt
  omega

@[simp] theorem payloadIsLoad_payloadOf (k : Slot) (isLoad : Bool) : payloadIsLoad (payloadOf k isLoad) = isLoad := by
  apply Function.LeftInverse.injective Bool.ofNat_toNat
  rw [payloadIsLoad_toNat, payloadOf_toNat]
  have := isLoad.toNat_lt
  omega

/-- A valid payload is the one built from its own fields. -/
theorem payloadOf_fields_of_payloadValid {d : Byte} (h : payloadValid d = true) :
    payloadOf (payloadSlot d) (payloadIsLoad d) = d := by
  have hd : d.toNat < 16 := (payloadValid_iff d).mp h
  apply BitVec.eq_of_toNat_eq
  rw [payloadOf_toNat, payloadSlot_toNat, payloadIsLoad_toNat]
  omega

end Sys2Proof.Machine
end

section
/-!
The decoder and the encoder are inverse (30 R46 to R53): an equation per class of call, then the round trip from the
transaction and from the call.
-/

namespace Sys2Proof

open Machine

section BusWrite
variable {cfg : Config} {la : LAddr} {d : Byte}

/-! ### A bus write -/

theorem decodeBusWrite_of_outside (hla : inBankCmdRange cfg la = false) : decodeBusWrite cfg la d = .wr la d := by
  simp [decodeBusWrite, hla]

theorem decodeBusWrite_of_not_payloadValid (hla : inBankCmdRange cfg la = true) (hd : payloadValid d = false) :
    decodeBusWrite cfg la d = .bcmdIgn la d := by
  simp [decodeBusWrite, hla, hd]

theorem decodeBusWrite_payloadOf_true (hla : inBankCmdRange cfg la = true) (k : Slot) :
    decodeBusWrite cfg la (payloadOf k true) = .bload la k := by
  simp [decodeBusWrite, hla]

theorem decodeBusWrite_payloadOf_false (hla : inBankCmdRange cfg la = true) (k : Slot) :
    decodeBusWrite cfg la (payloadOf k false) = .bstore la k := by
  simp [decodeBusWrite, hla]

theorem encode_decodeBusWrite (cfg : Config) (la : LAddr) (d : Byte) :
    encode cfg (decodeBusWrite cfg la d) = .busWrite la d := by
  unfold decodeBusWrite
  split_ifs with hla hd hload
  · rw [encode, ← hload, payloadOf_fields_of_payloadValid hd]
  · rw [encode, ← Bool.eq_false_of_not_eq_true hload, payloadOf_fields_of_payloadValid hd]
  · rfl
  · rfl

theorem wf_decodeBusWrite (cfg : Config) (la : LAddr) (d : Byte) : (decodeBusWrite cfg la d).wf cfg = true := by
  unfold decodeBusWrite
  split_ifs with hla hd hload
  · exact hla
  · exact hla
  · simp [Instr.wf, hla, hd]
  · simp [Instr.wf, hla]

end BusWrite

section Ctl
variable {cfg : Config} {ca v : Nat}

/-! ### A control call -/

theorem decodeCtl_dsr (cfg : Config) (v : Nat) : decodeCtl cfg cfg.ctrlDsrAddr v = .ctlDsr v := by
  simp [decodeCtl]

theorem decodeCtl_reset (hdsr : cfg.ctrlResetAddr ≠ cfg.ctrlDsrAddr) :
    decodeCtl cfg cfg.ctrlResetAddr v = .ctlRst v := by
  simp [decodeCtl, hdsr]

theorem decodeCtl_aux (hdsr : ca ≠ cfg.ctrlDsrAddr) (hrst : ca ≠ cfg.ctrlResetAddr)
    (haux : inRanges cfg.auxSerialRange ca = true) : decodeCtl cfg ca v = .ctlAux ca v := by
  simp [decodeCtl, hdsr, hrst, haux]

theorem decodeCtl_other (hdsr : ca ≠ cfg.ctrlDsrAddr) (hrst : ca ≠ cfg.ctrlResetAddr)
    (haux : inRanges cfg.auxSerialRange ca = false) : decodeCtl cfg ca v = .ctlOther ca v := by
  simp [decodeCtl, hdsr, hrst, haux]

theorem encode_decodeCtl (cfg : Config) (ca v : Nat) : encode cfg (decodeCtl cfg ca v) = .ctl ca v := by
  unfold decodeCtl
  split_ifs with hdsr hrst haux
  · rw [encode, hdsr]
  · rw [encode, hrst]
  · rfl
  · rfl

theorem wf_decodeCtl (ha : fitsCtrlAddr cfg ca = true) (hv : fitsCtrlData cfg v = true) :
    (decodeCtl cfg ca v).wf cfg = true := by
  unfold decodeCtl
  split_ifs with hdsr hrst haux
  · simp [Instr.wf, hv, ← hdsr, ha]
  · simp [Instr.wf, hv, ← hrst, ha, hdsr]
  · simp [Instr.wf, ha, hv, hdsr, hrst, haux]
  · simp [Instr.wf, ha, hv, hdsr, hrst, haux]

theorem decode_ctl_eq_instr_iff {i : Instr} : decode cfg (.ctl ca v) = .instr i ↔
    fitsCtrlAddr cfg ca = true ∧ fitsCtrlData cfg v = true ∧ decodeCtl cfg ca v = i := by
  cases ha : fitsCtrlAddr cfg ca with
  | false => simp [decode, ha]
  | true =>
    cases hv : fitsCtrlData cfg v with
    | false => simp [decode, ha, hv]
    | true => simp [decode, ha, hv]

theorem decode_ctl_of_fits (ha : fitsCtrlAddr cfg ca = true) (hv : fitsCtrlData cfg v = true) :
    decode cfg (.ctl ca v) = .instr (decodeCtl cfg ca v) :=
  decode_ctl_eq_instr_iff.mpr ⟨ha, hv, rfl⟩

end Ctl

/-! ### The round trips -/

/-- Settles O1, by the constructor of the transaction: its class of calls decodes to it. -/
theorem decodeOfEncodeIsIdentity : Obligations.DecodeOfEncodeIsIdentity := by
  intro cfg i hwf
  cases i with
  | rd la => rfl
  | wr la d =>
    simp only [Instr.wf, Bool.not_eq_true'] at hwf
    exact congrArg Decoded.instr (decodeBusWrite_of_outside hwf)
  | bload la k => exact congrArg Decoded.instr (decodeBusWrite_payloadOf_true hwf k)
  | bstore la k => exact congrArg Decoded.instr (decodeBusWrite_payloadOf_false hwf k)
  | bcmdIgn la d =>
    simp only [Instr.wf, Bool.and_eq_true, Bool.not_eq_true'] at hwf
    obtain ⟨hla, hd⟩ := hwf
    exact congrArg Decoded.instr (decodeBusWrite_of_not_payloadValid hla hd)
  | ctlDsr v =>
    simp only [Instr.wf, Bool.and_eq_true] at hwf
    obtain ⟨ha, hv⟩ := hwf
    rw [encode, decode_ctl_of_fits ha hv, decodeCtl_dsr]
  | ctlRst v =>
    simp only [Instr.wf, Bool.and_eq_true, bne_iff_ne] at hwf
    obtain ⟨⟨ha, hv⟩, hdsr⟩ := hwf
    rw [encode, decode_ctl_of_fits ha hv, decodeCtl_reset hdsr]
  | ctlAux ca v =>
    simp only [Instr.wf, Bool.and_eq_true, bne_iff_ne] at hwf
    obtain ⟨⟨⟨⟨ha, hv⟩, haux⟩, hdsr⟩, hrst⟩ := hwf
    rw [encode, decode_ctl_of_fits ha hv, decodeCtl_aux hdsr hrst haux]
  | ctlOther ca v =>
    simp only [Instr.wf, Bool.and_eq_true, bne_iff_ne, Bool.not_eq_true'] at hwf
    obtain ⟨⟨⟨⟨ha, hv⟩, haux⟩, hdsr⟩, hrst⟩ := hwf
    rw [encode, decode_ctl_of_fits ha hv, decodeCtl_other hdsr hrst haux]
  | lineCru level => rfl
  | linePtgen level => rfl
  | tick edge => rfl
  | reset => rfl

/-- Settles O2, by the port of the call: a bus write and a control call that fits keep their fields through the
class they fall in, and each other port has one reading. -/
theorem encodeOfDecodeIsIdentity : Obligations.EncodeOfDecodeIsIdentity := by
  intro cfg c i h
  cases c with
  | busRead la =>
    cases h
    exact ⟨rfl, rfl⟩
  | busWrite la d =>
    cases h
    exact ⟨encode_decodeBusWrite cfg la d, wf_decodeBusWrite cfg la d⟩
  | ctl ca v =>
    obtain ⟨ha, hv, rfl⟩ := decode_ctl_eq_instr_iff.mp h
    exact ⟨encode_decodeCtl cfg ca v, wf_decodeCtl ha hv⟩
  | line which level =>
    cases which <;> cases h <;> exact ⟨rfl, rfl⟩
  | tick edge =>
    cases h
    exact ⟨rfl, rfl⟩
  | reset =>
    cases h
    exact ⟨rfl, rfl⟩

/-- Settles O4: in the range `2k + 1` and `2k` are the payloads of slot `k`, and from 16 up none is valid. -/
theorem bankPayloadClassification : Obligations.BankPayloadClassification := by
  intro cfg la
  refine ⟨fun hla => ⟨fun k => ?_, fun k => ?_, fun d hd => ?_⟩, fun hla d => ?_, rfl⟩
  · have h := decodeBusWrite_payloadOf_true hla k
    rw [payloadOf_eq_ofNat] at h
    exact congrArg Decoded.instr h
  · have h := decodeBusWrite_payloadOf_false hla k
    rw [payloadOf_eq_ofNat] at h
    exact congrArg Decoded.instr h
  · have hinvalid : payloadValid d = false := by
      rw [Bool.eq_false_iff, ne_eq, payloadValid_iff]
      omega
    rw [decode, decodeBusWrite_of_not_payloadValid hla hinvalid]
  · rw [decode, decodeBusWrite_of_outside hla]

/-- Settles O3: every call and the configuration are concrete, so the decoder is run on each. -/
theorem writtenOutCallsDecode : Obligations.WrittenOutCallsDecode := by
  unfold Obligations.WrittenOutCallsDecode
  decide

end Sys2Proof
end

section
/-!
The registry build (40 R61, R62): what RESOLVE makes of a record, by the class of its name, and which entries stand
in each collection that BUILD makes.
-/

namespace Sys2Proof.Machine

variable {pseudoNames : List (String × Pseudo)} {devices : List String} {r : Record}

/-! ### RESOLVE -/

@[simp] theorem entryOf_mode (r : Record) (kind : Kind) : (entryOf r kind).mode = r.mode := rfl

@[simp] theorem entryOf_kind (r : Record) (kind : Kind) : (entryOf r kind).kind = kind := rfl

theorem resolve_of_lookup_eq_some {p : Pseudo} (h : pseudoNames.lookup r.resourceName = some p) :
    resolve pseudoNames devices r = some (entryOf r (.pseudo p)) := by
  rw [resolve, h]

theorem resolve_of_lookup_eq_none (h : pseudoNames.lookup r.resourceName = none) :
    resolve pseudoNames devices r =
      if r.resourceName ∈ devices then some (entryOf r (.ext r.resourceName)) else none := by
  simp only [resolve, h, List.contains_iff_mem]

/-- A name that no pseudo-resource has is not looked up. -/
theorem lookup_eq_none_of_forall_ne (h : ∀ x ∈ pseudoNames, x.1 ≠ r.resourceName) :
    pseudoNames.lookup r.resourceName = none :=
  List.lookup_eq_none_iff.mpr fun x hx => bne_iff_ne.mpr (h x hx).symm

/-- What RESOLVE keeps is the entry of its record, and a device that it names is a known one. -/
theorem resolve_eq_some {e : Entry} (h : resolve pseudoNames devices r = some e) :
    ∃ kind, e = entryOf r kind ∧ ∀ dev, kind = .ext dev → dev ∈ devices := by
  cases hlookup : pseudoNames.lookup r.resourceName with
  | some p =>
    rw [resolve_of_lookup_eq_some hlookup] at h
    cases h
    exact ⟨.pseudo p, rfl, fun dev hdev => nomatch hdev⟩
  | none =>
    rw [resolve_of_lookup_eq_none hlookup] at h
    split_ifs at h with hmem
    cases h
    refine ⟨.ext r.resourceName, rfl, fun dev hdev => ?_⟩
    cases hdev
    exact hmem

theorem mode_of_resolve_eq_some {e : Entry} (h : resolve pseudoNames devices r = some e) : e.mode = r.mode := by
  obtain ⟨kind, rfl, -⟩ := resolve_eq_some h
  exact entryOf_mode r kind

theorem mem_devices_of_resolve_eq_some {e : Entry} (h : resolve pseudoNames devices r = some e) {dev : String}
    (hdev : e.kind = .ext dev) : dev ∈ devices := by
  obtain ⟨kind, rfl, hknown⟩ := resolve_eq_some h
  exact hknown dev hdev

/-! ### BUILD -/

theorem build_cons_of_dropped (hres : resolve pseudoNames devices r = none) (rs : List Record) :
    build pseudoNames devices (r :: rs) = build pseudoNames devices rs := by
  simp [build, hres]

theorem build_cons_of_physical {e : Entry} (hres : resolve pseudoNames devices r = some e)
    (hmode : r.mode = .physical) (rs : List Record) :
    build pseudoNames devices (r :: rs) =
      ((build pseudoNames devices rs).1, e :: (build pseudoNames devices rs).2) := by
  simp [build, hres, hmode]

theorem build_cons_of_logical {e : Entry} (hres : resolve pseudoNames devices r = some e)
    (hmode : r.mode ≠ .physical) (rs : List Record) :
    build pseudoNames devices (r :: rs) =
      (e :: (build pseudoNames devices rs).1, (build pseudoNames devices rs).2) := by
  simp [build, hres, hmode]

/-- Settles O9, by induction on the records: the first is dropped, or heads the collection of its mode. -/
theorem buildRoutesRecordsInOrder : Obligations.BuildRoutesRecordsInOrder := by
  intro pseudoNames devices rs
  rw [List.filterMap_filter, List.filterMap_filter]
  induction rs with
  | nil => rfl
  | cons r rs ih =>
    cases hres : resolve pseudoNames devices r with
    | none => simp [build_cons_of_dropped hres, ih, hres]
    | some e =>
      by_cases hmode : r.mode = .physical
      · simp [build_cons_of_physical hres hmode, ih, hres, hmode]
      · simp [build_cons_of_logical hres hmode, ih, hres, hmode]

theorem mem_build_fst {rs : List Record} {e : Entry} :
    e ∈ (build pseudoNames devices rs).1 ↔
      ∃ r ∈ rs, r.mode ≠ .physical ∧ resolve pseudoNames devices r = some e := by
  simp [buildRoutesRecordsInOrder pseudoNames devices rs, and_assoc]

theorem mem_build_snd {rs : List Record} {e : Entry} :
    e ∈ (build pseudoNames devices rs).2 ↔
      ∃ r ∈ rs, r.mode = .physical ∧ resolve pseudoNames devices r = some e := by
  simp [buildRoutesRecordsInOrder pseudoNames devices rs, and_assoc]

/-- Settles O10: RESOLVE looks the name up first, and each built entry is what RESOLVE keeps of a record of its
collection's mode. -/
theorem builtEntriesPassTheirChecks : Obligations.BuiltEntriesPassTheirChecks := by
  intro pseudoNames devices
  refine ⟨fun r p hp => ?_, fun r hname hdev => ?_, fun r hname hdev => ?_, fun rs => ⟨?_, ?_, ?_⟩⟩
  · exact resolve_of_lookup_eq_some hp
  · rw [resolve_of_lookup_eq_none (lookup_eq_none_of_forall_ne hname), if_pos hdev, entryOf]
  · rw [resolve_of_lookup_eq_none (lookup_eq_none_of_forall_ne hname), if_neg hdev]
  · intro e he
    obtain ⟨r, -, hmode, hres⟩ := mem_build_fst.mp he
    rwa [mode_of_resolve_eq_some hres]
  · intro e he
    obtain ⟨r, -, hmode, hres⟩ := mem_build_snd.mp he
    rwa [mode_of_resolve_eq_some hres]
  · intro e he dev hdev
    obtain he | he := List.mem_append.mp he
    · obtain ⟨r, -, -, hres⟩ := mem_build_fst.mp he
      exact mem_devices_of_resolve_eq_some hres hdev
    · obtain ⟨r, -, -, hres⟩ := mem_build_snd.mp he
      exact mem_devices_of_resolve_eq_some hres hdev

end Sys2Proof.Machine
end

section
/-!
The acting entries of a scan (40 R69, R70): an equation per class of entry, the closed form over a whole list, and
what stands past an entry that stops.
-/

namespace Sys2Proof.Machine

variable {hit : Entry → Bool} {e : Entry}

theorem acting_cons_of_not_hit (hhit : hit e = false) (es : List Entry) :
    acting hit (e :: es) = acting hit es := by
  simp [acting, hhit]

theorem acting_cons_of_stop (hhit : hit e = true) (hstop : e.stop = true) (es : List Entry) :
    acting hit (e :: es) = [e] := by
  simp [acting, hhit, hstop]

theorem acting_cons_of_not_stop (hhit : hit e = true) (hstop : e.stop = false) (es : List Entry) :
    acting hit (e :: es) = e :: acting hit es := by
  simp [acting, hhit, hstop]

/-- The acting entries are the hits that do not stop, and then the first hit that stops. -/
theorem acting_eq_takeWhile_append (hit : Entry → Bool) (L : List Entry) :
    acting hit L =
      (L.filter hit).takeWhile (fun e => !e.stop) ++ ((L.filter hit).dropWhile fun e => !e.stop).take 1 := by
  induction L with
  | nil => rfl
  | cons e es ih =>
    cases hhit : hit e with
    | false => rw [acting_cons_of_not_hit hhit, ih, List.filter_cons_of_neg (by simp [hhit])]
    | true =>
      rw [List.filter_cons_of_pos hhit]
      cases hstop : e.stop with
      | true => simp [acting_cons_of_stop hhit hstop, hstop]
      | false => simp [acting_cons_of_not_stop hhit hstop, hstop, ih]

/-- Whatever stands below an entry that stops does not act (40 R70). -/
theorem acting_append_cons_of_stop (hhit : hit e = true) (hstop : e.stop = true) (above below : List Entry) :
    acting hit (above ++ e :: below) = acting hit (above ++ [e]) := by
  induction above with
  | nil => rw [List.nil_append, List.nil_append, acting_cons_of_stop hhit hstop, acting_cons_of_stop hhit hstop]
  | cons a above ih => simp only [List.cons_append, acting, ih]

/-- Settles O14: the scan runs its acting entries, and these have their closed form. -/
theorem scanIsItsActingSublist : Obligations.ScanIsItsActingSublist := by
  intro β hit act L s
  exact ⟨scan_eq_actAll hit act L none s, acting_eq_takeWhile_append hit L⟩

/-- Settles O15: the two scans have the same acting entries. -/
theorem nothingActsPastAStop : Obligations.NothingActsPastAStop := by
  intro β hit act above below e s hhit hstop
  rw [scan_eq_actAll, scan_eq_actAll, acting_append_cons_of_stop hhit hstop]

end Sys2Proof.Machine
end

section
/-!
What one acting entry's access does, by the entry's kind: the byte that a ROM or interrupt-sense entry reads (41 R76,
R78), and a device call with its reply (41 R79, R80).
-/

namespace Sys2Proof.Machine

/-! ### The state after a device call -/

/-- The state after the device call `ev`, with the replies `rest` still to come (log entry 6). -/
def State.called (s : State) (ev : Event) (rest : List DevReply) : State :=
  { s.emit ev with replies := rest }

@[simp] theorem State.called_cfg (s : State) (ev : Event) (rest : List DevReply) :
    (s.called ev rest).cfg = s.cfg := rfl

@[simp] theorem State.called_array (s : State) (ev : Event) (rest : List DevReply) (b : Buf) :
    (s.called ev rest).array b = s.array b :=
  s.emit_array ev b

@[simp] theorem State.called_peek (s : State) (ev : Event) (rest : List DevReply) (b : Buf) (i : Nat) :
    (s.called ev rest).peek b i = s.peek b i :=
  s.emit_peek ev b i

/-- The device call of an access and then its wait: the call's event stands before the notification. -/
theorem State.called_waitSet (s : State) (ev : Event) (rest : List DevReply) (c : Nat) :
    (s.checkReady.called ev rest).waitSet c =
      { s.served c with trace := s.trace ++ [ev, .notifyReady false], replies := rest } := by
  simp [State.called, State.emit, State.checkReady, State.waitSet, State.served]

theorem State.drawn_waitSet (s : State) (c : Nat) : s.drawn.waitSet c = (s.waitSet c).drawn := rfl

theorem State.raiseFault_eq (s : State) (r : Fault) : s.raiseFault r = { s with fault := some (s.fault.getD r) } := by
  unfold State.raiseFault
  cases s.fault
  · rfl
  · rfl

/-! ### A device call with its reply -/

section DeviceCall

variable {s : State} {rest : List DevReply} {v : Byte} (dev : String) (a : PAddr)

theorem deviceRead_of_found (h : s.replies = .answer v true :: rest) :
    deviceRead dev a s = .ok v (s.called (.devRead dev a) rest) := by
  simp only [deviceRead, h, State.called]

theorem deviceRead_of_notFound (h : s.replies = .answer v false :: rest) :
    deviceRead dev a s = .ok (Config.freeByte s.draws) (s.called (.devRead dev a) rest).drawn := by
  simp only [deviceRead, h]
  rfl

theorem deviceRead_of_noReply (h : s.replies = []) :
    deviceRead dev a s = .ok (Config.freeByte s.draws) (s.called (.devRead dev a) s.replies).drawn := by
  simp only [deviceRead, h]
  rw [← h]
  rfl

variable {f : Bool} (d : Byte)

theorem deviceWrite_of_answer (h : s.replies = .answer v f :: rest) :
    deviceWrite dev a d s = .ok () (s.called (.devWrite dev a d) rest) := by
  simp only [deviceWrite, h, State.called]

theorem deviceWrite_of_noReply (h : s.replies = []) :
    deviceWrite dev a d s = .ok () (s.called (.devWrite dev a d) s.replies) := by
  simp only [deviceWrite, h]
  rw [← h]
  rfl

theorem deviceWrite_of_reenter (h : s.replies = .reenter :: rest) :
    deviceWrite dev a d s = .faulted ((s.called (.devWrite dev a d) rest).raiseFault .nestedAccess) := by
  simp only [deviceWrite, h, raise, State.called]

end DeviceCall

/-! ### The actions of the other entries -/

theorem actRead_of_ext {e : Entry} {dev : String} (h : e.kind = .ext dev) (a : PAddr) (s : State) :
    actRead a e s = deviceRead dev a s := by
  simp only [actRead, h]

theorem actWrite_of_ext {e : Entry} {dev : String} (h : e.kind = .ext dev) (a : PAddr) (d : Byte) (s : State) :
    actWrite a d e s = deviceWrite dev a d s := by
  simp only [actWrite, h]

theorem actRead_of_ints {e : Entry} (h : e.kind = .pseudo .ints) (a : PAddr) (s : State) :
    actRead a e s = .ok (Config.freeByte s.draws) s.drawn := by
  simp only [actRead, h, draw]

/-- 41 R76. -/
theorem actRead_of_romOffset {s : State} {e : Entry} {off : PAddr} (h : romOffset s.cfg e = some off) (a : PAddr) :
    actRead a e s = romRead (off ||| entryIndex e a).toNat s := by
  unfold romOffset at h
  split at h
  case h_1 hk =>
    cases h
    simp only [actRead, hk]
  case h_2 hk =>
    cases h
    simp only [actRead, hk]
  case h_3 hk =>
    cases h
    simp only [actRead, hk]
  case h_4 => cases h

/-! ### The access of one acting entry -/

theorem actAll_cons_ok {β : Type} {act : Entry → State → Flow β} {e : Entry} {s t : State} {r : β}
    (h : act e s = .ok r t) (es : List Entry) (last : Option β) :
    actAll act (e :: es) last s = actAll act es (some r) t := by
  simp only [actAll, h, Flow.bind]

theorem actAll_cons_faulted {β : Type} {act : Entry → State → Flow β} {e : Entry} {s t : State}
    (h : act e s = .faulted t) (es : List Entry) (last : Option β) : actAll act (e :: es) last s = .faulted t := by
  simp only [actAll, h, Flow.bind]

/-- A write whose actions end in a fault ends where they ended, with no wait, at either level (44 R114). -/
theorem busWrite_of_actAll_faulted {s t : State} {la : LAddr} {d : Byte} {es : List Entry} {a : PAddr} {c : Nat}
    (hr : Reaches s .write la es a c) (h : actAll (actWrite a d) es none s.checkReady = .faulted t) :
    busWrite la d s = t := by
  obtain ⟨-, ⟨hes, rfl, -⟩ | ⟨hmiss, hes, rfl, -⟩⟩ := hr
  · rw [← hes, ← writeLogical_eq_actAll] at h
    simp only [busWrite, h]
  · rw [← hes, ← writePhysical_eq_actAll] at h
    simp only [busWrite_of_miss hmiss, writeFallback, h]

/-- A read that only `e` answers returns its byte and takes the wait of its level. -/
theorem busRead_of_actRead_ok {s t : State} {la : LAddr} {e : Entry} {a : PAddr} {c : Nat} {v : Byte}
    (hr : Reaches s .read la [e] a c) (h : actRead a e s.checkReady = .ok v t) :
    busRead la s = (t.waitSet c).returnByte v :=
  busRead_of_actAll_ok hr (actAll_singleton h none)

/-- A write that only `e` takes takes the wait of its level. -/
theorem busWrite_of_actWrite_ok {s t : State} {la : LAddr} {d : Byte} {e : Entry} {a : PAddr} {c : Nat}
    (hr : Reaches s .write la [e] a c) (h : actWrite a d e s.checkReady = .ok () t) :
    busWrite la d s = t.waitSet c :=
  busWrite_of_actAll_ok hr (actAll_singleton h none)

/-- A read that only `e` answers, with one device call and then a byte drawn. -/
theorem busRead_of_called_drawn {s : State} {la : LAddr} {e : Entry} {a : PAddr} {c : Nat} {v : Byte} {ev : Event}
    {rest : List DevReply} (hr : Reaches s .read la [e] a c)
    (h : actRead a e s.checkReady = .ok v (s.checkReady.called ev rest).drawn) :
    busRead la s =
      ({ s.served c with trace := s.trace ++ [ev, .notifyReady false], replies := rest }).drawn.returnByte v := by
  rw [busRead_of_actRead_ok hr h, State.drawn_waitSet, State.called_waitSet]

/-- A write that only `e` takes, with one device call. -/
theorem busWrite_of_called {s : State} {la : LAddr} {d : Byte} {e : Entry} {a : PAddr} {c : Nat} {ev : Event}
    {rest : List DevReply} (hr : Reaches s .write la [e] a c)
    (h : actWrite a d e s.checkReady = .ok () (s.checkReady.called ev rest)) :
    busWrite la d s = { s.served c with trace := s.trace ++ [ev, .notifyReady false], replies := rest } := by
  rw [busWrite_of_actWrite_ok hr h, State.called_waitSet]

/-! ### The statements: RD -/

/-- Settles O19: the entry's action is MemRead of its buffer, which finds the index within the size. -/
theorem readOfABuffer : Obligations.ReadOfABuffer := by
  intro s la e a c b hr hb hi
  exact congrArg Host.Outcome.next (busRead_of_buffer hr hb hi)

/-- Settles O20: the entry's action is MemRead of the ROM image, which finds the index within its size. -/
theorem readOfRom : Obligations.ReadOfRom := by
  intro s la e a c off hr hoff hi
  have hact : actRead a e s.checkReady = .ok (romByte s.cfg (off ||| entryIndex e a).toNat) s.checkReady := by
    rw [actRead_of_romOffset (s := s.checkReady) hoff, romRead, State.checkReady_cfg, if_pos hi]
  exact congrArg Host.Outcome.next (busRead_of_actRead_ok hr hact)

/-- Settles O21: the entry's action is one draw. -/
theorem readOfInterruptSense : Obligations.ReadOfInterruptSense := by
  intro s la e a c hr hk
  exact congrArg Host.Outcome.next (busRead_of_actRead_ok hr (actRead_of_ints hk a _))

/-- Settles O22: the entry's action is the device call, and the first reply says which byte comes back. -/
theorem readOfADevice : Obligations.ReadOfADevice := by
  intro s la e a c dev hr hk
  have hact : actRead a e s.checkReady = deviceRead dev a s.checkReady := actRead_of_ext hk a _
  refine ⟨fun v rest hreply => ?found, fun v rest hreply => ?notFound, fun hreply => ?noReply⟩
  case found =>
    have hbus := busRead_of_actRead_ok hr (hact.trans (deviceRead_of_found dev a hreply))
    rw [State.called_waitSet] at hbus
    exact congrArg Host.Outcome.next hbus
  case notFound =>
    have hfree := hact.trans (deviceRead_of_notFound dev a hreply)
    exact congrArg Host.Outcome.next (busRead_of_called_drawn hr hfree)
  case noReply =>
    have hfree := hact.trans (deviceRead_of_noReply dev a hreply)
    exact congrArg Host.Outcome.next (busRead_of_called_drawn hr hfree)

/-- Settles O24: the device's reply changes no byte of the buffer, whose entry acts last and gives the answer. -/
theorem shadowReadReturnsTheLastValue : Obligations.ShadowReadReturnsTheLastValue := by
  intro s la e1 e2 a c dev b v rest hr hk hb hi hreply
  have hfirst : actRead a e1 s.checkReady = .ok v (s.checkReady.called (.devRead dev a) rest) :=
    (actRead_of_ext hk a _).trans (deviceRead_of_found dev a hreply)
  have hlast : actRead a e2 (s.checkReady.called (.devRead dev a) rest) =
      .ok (s.peek b (entryIndex e2 a).toNat) (s.checkReady.called (.devRead dev a) rest) := by
    rw [actRead_of_bufferOf hb, memRead, State.called_cfg, State.checkReady_cfg, if_pos hi, State.called_peek,
      State.checkReady_peek]
  have hbus := busRead_of_actAll_ok hr ((actAll_cons_ok hfirst [e2] none).trans (actAll_singleton hlast _))
  rw [State.called_waitSet] at hbus
  exact congrArg Host.Outcome.next hbus

/-! ### The statements: WR -/

/-- SRAM and DRAM stand in their own arrays. -/
theorem bufHome_of_bufferOf {e : Entry} {b : Buf} (h : bufferOf e = some b) (cfg : Config) : bufHome cfg b = b := by
  unfold bufferOf at h
  split at h
  case h_1 =>
    cases h
    rfl
  case h_2 =>
    cases h
    rfl
  case h_3 => cases h

theorem State.setArray_waitSet (s : State) (b : Buf) (m : Memory) (c : Nat) :
    (s.checkReady.setArray b m).waitSet c = (s.served c).setArray b m := by
  cases b
  · rfl
  · rfl
  · rfl

/-- Settles O28: the new array is the old one with the byte at the index. -/
theorem writeOfABuffer : Obligations.WriteOfABuffer := by
  intro s la d e a c b hr hb hi hs
  refine ⟨(s.array b).write (entryIndex e a).toNat d, congrArg Host.Outcome.next ?_,
    Memory.read_write_same (State.array_wf hs b) _ d, fun i hne => Memory.read_write_other hne _ d⟩
  rw [busWrite_of_buffer hr hb hi, State.poke, bufHome_of_bufferOf hb, State.checkReady_array, State.setArray_waitSet]

/-- Settles O30: the entry's action is the device call; an answer or none ends it well, a call back in a fault. -/
theorem writeOfADevice : Obligations.WriteOfADevice := by
  intro s la d e a c dev hr hk
  have hact : actWrite a d e s.checkReady = deviceWrite dev a d s.checkReady := actWrite_of_ext hk a d _
  refine ⟨fun v f rest hreply => ?answer, fun hreply => ?noReply, fun rest hreply => ?reenter⟩
  case answer =>
    have htaken := hact.trans (deviceWrite_of_answer dev a d hreply)
    exact congrArg Host.Outcome.next (busWrite_of_called hr htaken)
  case noReply =>
    have htaken := hact.trans (deviceWrite_of_noReply dev a d hreply)
    exact congrArg Host.Outcome.next (busWrite_of_called hr htaken)
  case reenter =>
    have hfault := hact.trans (deviceWrite_of_reenter dev a d hreply)
    have hbus := busWrite_of_actAll_faulted hr (actAll_cons_faulted hfault [] none)
    rw [State.raiseFault_eq] at hbus
    exact congrArg Host.Outcome.next hbus

end Sys2Proof.Machine
end

section
/-!
The frame of a write (40 R65, 41 R81): what every acting entry of the serving level keeps, the write keeps.
-/

namespace Sys2Proof.Machine

/-! ### What actions keep -/

/-- A property of states that the action of every listed entry keeps, their actions one after another keep. -/
theorem actAll_keeps {β : Type} {act : Entry → State → Flow β} {P : State → Prop} {es : List Entry}
    (hact : ∀ e ∈ es, ∀ s, P s → P (act e s).state) (last : Option β) {s : State} (hs : P s) :
    P (actAll act es last s).state := by
  induction es generalizing last s with
  | nil => exact hs
  | cons e es ih =>
    obtain ⟨he, hes⟩ := List.forall_mem_cons.mp hact
    have hfirst := he s hs
    cases hx : act e s with
    | faulted t =>
      rw [hx] at hfirst
      rwa [actAll_cons_faulted hx]
    | ok r t =>
      rw [hx] at hfirst
      rw [actAll_cons_ok hx]
      exact ih hes (some r) hfirst

section BusWrite

variable {P : State → Prop} {s : State} {la : LAddr} {d : Byte}

theorem writeFallback_keeps (hwait : ∀ t c, P t → P (t.waitSet c))
    (hact : ∀ e ∈ actingPhysical s .write la, ∀ t, P t → P (actWrite (relocate s.bank la) d e t).state)
    (hs : P s.checkReady) : P (writeFallback la d s.checkReady) := by
  have hP : P (writePhysical la d s.checkReady).state := by
    rw [writePhysical_eq_actAll]
    exact actAll_keeps hact none hs
  unfold writeFallback
  split
  case h_1 t h => rwa [h] at hP
  case h_2 r t h =>
    rw [h] at hP
    exact hwait t _ hP

/-- A write keeps what the wait keeps and the acting entries of the level that serves it keep. -/
theorem busWrite_keeps (hwait : ∀ t c, P t → P (t.waitSet c))
    (hlog : ∀ e ∈ actingLogical s .write la, ∀ t, P t → P (actWrite (widen la) d e t).state)
    (hphys : actingLogical s .write la = [] →
      ∀ e ∈ actingPhysical s .write la, ∀ t, P t → P (actWrite (relocate s.bank la) d e t).state)
    (hs : P s.checkReady) : P (busWrite la d s) := by
  by_cases hmiss : actingLogical s .write la = []
  · rw [busWrite_of_miss hmiss]
    exact writeFallback_keeps hwait (hphys hmiss) hs
  · have hL : P (writeLogical la d s.checkReady).state := by
      rw [writeLogical_eq_actAll]
      exact actAll_keeps hlog none hs
    unfold busWrite
    split
    case h_1 t h => rwa [h] at hL
    case h_2 t h =>
      rw [h] at hL
      exact hwait t _ hL
    case h_3 t h => exact absurd (scan_eq_ok_none_iff.mp h).1 hmiss

end BusWrite

theorem busWrite_returned (la : LAddr) (d : Byte) (s : State) : (busWrite la d s).returned = s.returned :=
  busWrite_keeps (P := fun t => t.returned = s.returned) (fun _ _ ht => ht)
    (fun e _ t ht => (actWrite_actFlow _ d e t).effect.returned.trans ht)
    (fun _ e _ t ht => (actWrite_actFlow _ d e t).effect.returned.trans ht) rfl

theorem busWrite_nv (la : LAddr) (d : Byte) (s : State) : (busWrite la d s).nv = s.nv :=
  busWrite_keeps (P := fun t => t.nv = s.nv) (fun _ _ ht => ht)
    (fun e _ t ht => (actWrite_actFlow _ d e t).effect.nv.trans ht)
    (fun _ e _ t ht => (actWrite_actFlow _ d e t).effect.nv.trans ht) rfl

/-! ### The bytes that a write leaves -/

/-- An entry acts on a write as a buffer's, as one that drops it, or as a device's (41 R74). -/
theorem kind_cases (e : Entry) :
    (∃ b, bufferOf e = some b) ∨ dropsWrites e = true ∨ ∃ dev, e.kind = .ext dev := by
  cases hk : e.kind with
  | ext dev => exact .inr (.inr ⟨dev, rfl⟩)
  | pseudo p => cases p <;> simp [bufferOf, dropsWrites, hk]

/-- A store leaves every byte of another array, and every other index of its own. -/
theorem memWrite_array_read {s : State} {b b' : Buf} {i j : Nat} (h : bufHome s.cfg b' = b → j ≠ i) (v : Byte) :
    ((memWrite b' j v s).state.array b).read i = (s.array b).read i := by
  unfold memWrite
  split
  case isTrue =>
    simp only [Flow.state, State.poke]
    by_cases hb : b = bufHome s.cfg b'
    · rw [← hb, State.setArray_array_same, Memory.read_write_other (h hb.symm).symm]
    · rw [State.setArray_array_other _ hb]
  case isFalse => exact congrArg (Memory.read · i) (s.raiseFault_array _ b)

theorem deviceWrite_array (dev : String) (a : PAddr) (d : Byte) (s : State) (b : Buf) :
    (deviceWrite dev a d s).state.array b = s.array b := by
  cases hreply : s.replies with
  | nil => simp [deviceWrite_of_noReply dev a d hreply, Flow.state]
  | cons r rest =>
    cases r with
    | answer v f => simp [deviceWrite_of_answer dev a d hreply, Flow.state]
    | reenter => simp [deviceWrite_of_reenter dev a d hreply, Flow.state]

/-- An acting entry of a write changes only the byte at its index of its buffer. -/
theorem actWrite_array_read {e : Entry} {a : PAddr} {b : Buf} {i : Nat}
    (h : bufferOf e = some b → (entryIndex e a).toNat ≠ i) (d : Byte) (s : State) :
    ((actWrite a d e s).state.array b).read i = (s.array b).read i := by
  obtain ⟨b', hb'⟩ | hdrop | ⟨dev, hk⟩ := kind_cases e
  · rw [actWrite_of_bufferOf hb']
    refine memWrite_array_read (fun hhome => h ?_) d
    rw [hb', ← hhome, bufHome_of_bufferOf hb']
  · rw [actWrite_of_dropsWrites hdrop, Flow.state]
  · rw [actWrite_of_ext hk, deviceWrite_array]

theorem busWrite_array_read {s : State} {la : LAddr} {b : Buf} {i : Nat}
    (hlog : ∀ e ∈ actingLogical s .write la, bufferOf e = some b → (entryIndex e (widen la)).toNat ≠ i)
    (hphys : actingLogical s .write la = [] → ∀ e ∈ actingPhysical s .write la,
      bufferOf e = some b → (entryIndex e (relocate s.bank la)).toNat ≠ i) (d : Byte) :
    ((busWrite la d s).array b).read i = (s.array b).read i :=
  busWrite_keeps (P := fun t => (t.array b).read i = (s.array b).read i)
    (fun t c ht => by rwa [State.waitSet_array])
    (fun e he t ht => (actWrite_array_read (hlog e he) d t).trans ht)
    (fun hmiss e he t ht => (actWrite_array_read (hphys hmiss e he) d t).trans ht)
    (by rw [State.checkReady_array])

/-- Settles O34: the registers by the shape of any access, the arrays by what each acting entry keeps. -/
theorem writeFrame : Obligations.WriteFrame := by
  intro s t la d h
  cases h
  have hres := busWrite_result la d s
  obtain ⟨hdsr, hcru, hptgen⟩ := hres.flags
  exact ⟨hres.cfg, busWrite_bank la d s, hdsr, hcru, hptgen, hres.inbox, busWrite_returned la d s,
    busWrite_nv la d s, fun b i hlog hphys => busWrite_array_read hlog hphys d⟩

end Sys2Proof.Machine
end

section
/-!
Relocation in numbers (42 R86, R99), and an access that no entry answers at either level (44 R113, R115).
-/

namespace Sys2Proof.Machine

/-! ### The fields of a logical address -/

theorem pageOf_val (la : LAddr) : (pageOf la).val = la.toNat / 4096 := by
  have hla := la.isLt
  simp only [pageOf, BitVec.val_toFin, BitVec.extractLsb'_toNat, Nat.shiftRight_eq_div_pow]
  omega

theorem offsetOf_toNat (la : LAddr) : (offsetOf la).toNat = la.toNat % 4096 := by
  simp [offsetOf]

theorem toNat_and_0xFFF (la : LAddr) : (la &&& 0xFFF#16).toNat = la.toNat % 4096 := by
  rw [BitVec.toNat_and]
  exact Nat.and_two_pow_sub_one_eq_mod la.toNat 12

/-! ### Relocation -/

theorem relocate_toNat (bank : Vector BankWord 16) (la : LAddr) :
    (relocate bank la).toNat = (bank[pageOf la].toNat + la.toNat % 4096) % 2 ^ 32 := by
  simp [relocate, offsetOf_toNat]

theorem relocate_of_zero_page {bank : Vector BankWord 16} {la : LAddr} (h : bank[pageOf la] = 0#32) :
    relocate bank la = (la &&& 0xFFF#16).setWidth 32 := by
  apply BitVec.eq_of_toNat_eq
  rw [relocate_toNat, h, BitVec.toNat_setWidth, toNat_and_0xFFF, BitVec.toNat_ofNat, Nat.zero_mod, Nat.zero_add]

/-- Settles O17: the sum of R86 in numbers, where the page indexes the bank table. -/
theorem relocationAddsModulo : Obligations.RelocationAddsModulo := by
  intro bank la h
  rw [relocate_toNat]
  simp only [Fin.getElem_fin, pageOf_val]

/-- Settles O18: a zero base adds nothing, and RESET leaves sixteen of them. -/
theorem relocationIsIdentityOnAZeroPage : Obligations.RelocationIsIdentityOnAZeroPage := by
  refine ⟨fun bank la h => relocate_of_zero_page h, fun s t la h => relocate_of_zero_page ?_⟩
  cases h
  exact Vector.getElem_replicate (pageOf la).isLt

/-! ### A miss at both levels -/

/-- Settles O23: both scans find nothing and change nothing, so the byte is drawn after the physical wait. -/
theorem readOfAnUnmappedAddress : Obligations.ReadOfAnUnmappedAddress := by
  intro s la ⟨hlog, hphys⟩
  have hmiss : readPhysical la s.checkReady = .ok none s.checkReady := scan_eq_ok_none_iff.mpr ⟨hphys, rfl⟩
  refine congrArg Host.Outcome.next ?_
  rw [busRead_of_miss hlog]
  simp only [readFallback, hmiss]
  rfl

/-- Settles O31: both scans find nothing and change nothing, so the physical wait is all that the write does. -/
theorem writeToAnUnmappedAddressIsDiscarded : Obligations.WriteToAnUnmappedAddressIsDiscarded := by
  intro s la d ⟨hlog, hphys⟩
  have hmiss : writePhysical la d s.checkReady = .ok none s.checkReady := scan_eq_ok_none_iff.mpr ⟨hphys, rfl⟩
  refine congrArg Host.Outcome.next ?_
  rw [busWrite_of_miss hlog]
  simp only [writeFallback, hmiss]
  rfl

end Sys2Proof.Machine
end

section
/-!
The logical level under another bank table and other physical entries (42 R83): `State.rebase` commutes with every
action, so with the scan of the logical entries, whose hits it does not touch.
-/

namespace Sys2Proof.Machine

/-- The same end of an operation, in the state that `g` makes of the one it left. -/
def Flow.mapState {α : Type} (g : State → State) : Flow α → Flow α
  | .ok a s => .ok a (g s)
  | .faulted s => .faulted (g s)

theorem Flow.bind_mapState {α β : Type} {g : State → State} {f : α → State → Flow β}
    (hf : ∀ a t, f a (g t) = (f a t).mapState g) (x : Flow α) :
    (x.mapState g).bind f = (x.bind f).mapState g := by
  cases x with
  | ok a t => exact hf a t
  | faulted t => rfl

/-- What commutes with every action commutes with the scan. -/
theorem scan_mapState {β : Type} {g : State → State} {hit : Entry → Bool} {act : Entry → State → Flow β}
    (hact : ∀ e s, act e (g s) = (act e s).mapState g) (L : List Entry) (last : Option β) (s : State) :
    scan hit act L last (g s) = (scan hit act L last s).mapState g := by
  induction L generalizing last s with
  | nil => rfl
  | cons e es ih =>
    unfold scan
    split_ifs with hhit hstop
    · rw [hact]
      exact Flow.bind_mapState (fun _ _ => rfl) _
    · rw [hact]
      exact Flow.bind_mapState (fun r t => ih (some r) t) _
    · exact ih last s

section Rebase

variable (bank : Vector BankWord 16) (physical : List Entry)

/-! ### The bytes -/

theorem State.rebase_setArray (s : State) (b : Buf) (m : Memory) :
    (s.rebase bank physical).setArray b m = (s.setArray b m).rebase bank physical := by
  cases b
  · rfl
  · rfl
  · rfl

theorem State.rebase_poke (s : State) (b : Buf) (i : Nat) (v : Byte) :
    (s.rebase bank physical).poke b i v = (s.poke b i v).rebase bank physical :=
  State.rebase_setArray bank physical s _ _

theorem memRead_rebase (b : Buf) (i : Nat) (s : State) :
    memRead b i (s.rebase bank physical) = (memRead b i s).mapState (·.rebase bank physical) := by
  have hsize : bufSize (s.rebase bank physical).cfg b = bufSize s.cfg b := rfl
  unfold memRead
  rw [hsize]
  split
  · rfl
  · rfl

theorem memWrite_rebase (b : Buf) (i : Nat) (v : Byte) (s : State) :
    memWrite b i v (s.rebase bank physical) = (memWrite b i v s).mapState (·.rebase bank physical) := by
  have hsize : bufSize (s.rebase bank physical).cfg b = bufSize s.cfg b := rfl
  unfold memWrite
  rw [hsize, State.rebase_poke]
  split
  · rfl
  · rfl

theorem romRead_rebase (i : Nat) (s : State) :
    romRead i (s.rebase bank physical) = (romRead i s).mapState (·.rebase bank physical) := by
  have hsize : (s.rebase bank physical).cfg.romSize = s.cfg.romSize := rfl
  unfold romRead
  rw [hsize]
  split
  · rfl
  · rfl

/-! ### The actions -/

theorem deviceRead_rebase (dev : String) (a : PAddr) (s : State) :
    deviceRead dev a (s.rebase bank physical) = (deviceRead dev a s).mapState (·.rebase bank physical) := by
  have hreplies : (s.rebase bank physical).replies = s.replies := rfl
  unfold deviceRead
  rw [hreplies]
  split
  · rfl
  · rfl
  · rfl
  · rfl

theorem deviceWrite_rebase (dev : String) (a : PAddr) (d : Byte) (s : State) :
    deviceWrite dev a d (s.rebase bank physical) = (deviceWrite dev a d s).mapState (·.rebase bank physical) := by
  have hreplies : (s.rebase bank physical).replies = s.replies := rfl
  unfold deviceWrite
  rw [hreplies]
  split
  · rfl
  · rfl
  · rfl

theorem actRead_rebase (a : PAddr) (e : Entry) (s : State) :
    actRead a e (s.rebase bank physical) = (actRead a e s).mapState (·.rebase bank physical) := by
  unfold actRead
  split
  · exact memRead_rebase bank physical _ _ s
  · exact memRead_rebase bank physical _ _ s
  · exact romRead_rebase bank physical _ s
  · exact romRead_rebase bank physical _ s
  · exact romRead_rebase bank physical _ s
  · rfl
  · exact deviceRead_rebase bank physical _ a s

theorem actWrite_rebase (a : PAddr) (d : Byte) (e : Entry) (s : State) :
    actWrite a d e (s.rebase bank physical) = (actWrite a d e s).mapState (·.rebase bank physical) := by
  obtain ⟨b, hb⟩ | hdrop | ⟨dev, hk⟩ := kind_cases e
  · rw [actWrite_of_bufferOf hb, actWrite_of_bufferOf hb, memWrite_rebase]
  · rw [actWrite_of_dropsWrites hdrop, actWrite_of_dropsWrites hdrop, Flow.mapState]
  · rw [actWrite_of_ext hk, actWrite_of_ext hk, deviceWrite_rebase]

/-! ### The access -/

theorem readLogical_rebase (la : LAddr) (s : State) :
    readLogical la (s.rebase bank physical) = (readLogical la s).mapState (·.rebase bank physical) :=
  scan_mapState (actRead_rebase bank physical _) _ _ s

theorem writeLogical_rebase (la : LAddr) (d : Byte) (s : State) :
    writeLogical la d (s.rebase bank physical) = (writeLogical la d s).mapState (·.rebase bank physical) :=
  scan_mapState (actWrite_rebase bank physical _ d) _ _ s

variable {s : State} {la : LAddr}

theorem busRead_rebase (hhit : actingLogical s .read la ≠ []) :
    busRead la (s.rebase bank physical) = (busRead la s).rebase bank physical := by
  have hlog : readLogical la (s.rebase bank physical).checkReady =
      (readLogical la s.checkReady).mapState (·.rebase bank physical) :=
    readLogical_rebase bank physical la s.checkReady
  unfold busRead
  rw [hlog]
  cases hx : readLogical la s.checkReady with
  | faulted t => rfl
  | ok r t =>
    cases r with
    | some v => rfl
    | none => exact absurd (scan_eq_ok_none_iff.mp hx).1 hhit

theorem busWrite_rebase (d : Byte) (hhit : actingLogical s .write la ≠ []) :
    busWrite la d (s.rebase bank physical) = (busWrite la d s).rebase bank physical := by
  have hlog : writeLogical la d (s.rebase bank physical).checkReady =
      (writeLogical la d s.checkReady).mapState (·.rebase bank physical) :=
    writeLogical_rebase bank physical la d s.checkReady
  unfold busWrite
  rw [hlog]
  cases hx : writeLogical la d s.checkReady with
  | faulted t => rfl
  | ok r t =>
    cases r with
    | some u => rfl
    | none => exact absurd (scan_eq_ok_none_iff.mp hx).1 hhit

end Rebase

/-- Settles O37: on a logical hit the access is the logical scan and its wait, and both commute with the change. -/
theorem logicalHitIgnoresRelocation : Obligations.LogicalHitIgnoresRelocation := by
  intro s la d bank physical
  refine ⟨fun hhit t h => ?_, fun hhit t h => ?_⟩
  · cases h
    exact congrArg Host.Outcome.next (busRead_rebase bank physical hhit)
  · cases h
    exact congrArg Host.Outcome.next (busWrite_rebase bank physical d hhit)

end Sys2Proof.Machine
end

section
/-!
BLOAD and BSTORE of a whole slot (42 R94, R95, R97, R98; 44 R116): the loops of Laws/BankCmd.lean over all sixteen
entries, and the byte that a stored slot holds.
-/

namespace Sys2Proof.Machine

/-! ### The bytes of a slot -/

/-- The four bytes of entry `i` of slot `k`, as one big-endian word (20 R34). -/
def State.slotWord (s : State) (k : Slot) (i : Fin 16) : BankWord :=
  bigEndian (s.peek .nv (slotOffset k i)) (s.peek .nv (slotOffset k i + 1)) (s.peek .nv (slotOffset k i + 2))
    (s.peek .nv (slotOffset k i + 3))

theorem State.slotWord_of_bytes {s : State} {k : Slot} {i : Fin 16} {w : BankWord}
    (h : ∀ j < 4, s.peek .nv (slotOffset k i + j) = bigEndianByte w j) : s.slotWord k i = w := by
  have h0 : s.peek .nv (slotOffset k i) = bigEndianByte w 0 := h 0 (by omega)
  rw [State.slotWord, h0, h 1 (by omega), h 2 (by omega), h 3 (by omega), bigEndian_bigEndianByte]

theorem le_slotOffset (k : Slot) (i : Fin 16) : 64 * k.toNat ≤ slotOffset k i := Nat.le_add_right _ _

theorem slotOffset_add_four_le (k : Slot) (i : Fin 16) : slotOffset k i + 4 ≤ 64 * k.toNat + 64 := by
  have hi := i.isLt
  unfold slotOffset
  omega

/-- Every byte of a slot is one of the four of an entry. -/
theorem exists_eq_slotOffset_add {k : Slot} {n : Nat} (hlo : 64 * k.toNat ≤ n) (hhi : n < 64 * k.toNat + 64) :
    ∃ i : Fin 16, ∃ j < 4, n = slotOffset k i + j := by
  refine ⟨⟨(n - 64 * k.toNat) / 4, by omega⟩, (n - 64 * k.toNat) % 4, by omega, ?_⟩
  simp only [slotOffset]
  omega

/-- The last entry of a slot ends with the slot. -/
theorem exists_slotOffset_past {k : Slot} {n : Nat} (h : n < 64 * k.toNat + 64) :
    ∃ i ∈ List.finRange 16, n ≤ slotOffset k i + 3 :=
  ⟨15, List.mem_finRange 15, Nat.le_of_lt_succ h⟩

theorem State.setArray_peek_same (s : State) (b : Buf) (m : Memory) (n : Nat) :
    (s.setArray (bufHome s.cfg b) m).peek b n = m.read n := by
  rw [State.peek, State.setArray_cfg, State.setArray_array_same]

/-! ### A bank command by the end of its work -/

theorem bankCommand_of_ok {work : State → Flow Unit} {s t : State} (h : work s.checkReady = .ok () t) :
    bankCommand work s = t.waitSet t.cfg.waitLogical := by
  simp only [bankCommand, h]

theorem bankCommand_of_faulted {work : State → Flow Unit} {s t : State} (h : work s.checkReady = .faulted t) :
    bankCommand work s = t := by
  simp only [bankCommand, h]

/-! ### BLOAD -/

theorem loadBank_ok {s : State} {k : Slot} (h : 64 * k.toNat + 64 ≤ bufSize s.cfg .nv) :
    loadBank k s = .ok () { s with bank := Vector.ofFn (s.slotWord k) } := by
  obtain ⟨b, hload, hb⟩ := loadEntries_ok k (List.finRange 16) s fun i _ => slotOffset_lt h i
  have hbank : b = Vector.ofFn (s.slotWord k) := by
    ext1 i hi
    rw [Vector.getElem_ofFn]
    exact (hb ⟨i, hi⟩).trans (if_pos (List.mem_finRange _))
  rw [loadBank, hload, hbank]

/-- Past the end of the store BLOAD takes the words that the store has (log entry 9). -/
theorem loadBank_faulted {s : State} {k : Slot} (h : bufSize s.cfg .nv < 64 * k.toNat + 64) :
    loadBank k s = .faulted (State.raiseFault
      { s with bank := Vector.ofFn fun i =>
          if slotOffset k i + 4 ≤ bufSize s.cfg .nv then s.slotWord k i else s.bank[i] } .indexOutOfRange) := by
  obtain ⟨b, hload, hb⟩ :=
    loadEntries_faulted k (List.finRange 16) (List.pairwise_lt_finRange 16) s (exists_slotOffset_past h)
  have hbank : b = Vector.ofFn fun i =>
      if slotOffset k i + 4 ≤ bufSize s.cfg .nv then s.slotWord k i else s.bank[i] := by
    ext1 i hi
    rw [Vector.getElem_ofFn]
    refine (hb ⟨i, hi⟩).trans ?_
    simp only [List.mem_finRange, true_and]
    rfl
  rw [loadBank, hload, hbank]

/-- Settles O38: the loading loop over all sixteen entries, from a store that holds the slot and from one that
does not. -/
theorem bankLoadTakesTheSlot : Obligations.BankLoadTakesTheSlot := by
  intro s la k
  refine ⟨fun h => congrArg Host.Outcome.next ?_, fun h => congrArg Host.Outcome.next ?_⟩
  · have hwork : loadBank k s.checkReady = _ := loadBank_ok h
    rw [bankCommand_of_ok hwork]
    rfl
  · have hwork : loadBank k s.checkReady = _ := loadBank_faulted h
    rw [bankCommand_of_faulted hwork, State.raiseFault_eq]
    rfl

/-! ### BSTORE -/

theorem storeBank_ok {s : State} {k : Slot} (hs : s.buffersOk) (h : 64 * k.toNat + 64 ≤ bufSize s.cfg .nv) :
    ∃ m : Memory, storeBank k s = .ok () (s.setArray (bufHome s.cfg .nv) m) ∧
      (∀ (i : Fin 16), ∀ j < 4, m.read (slotOffset k i + j) = bigEndianByte s.bank[i] j) ∧
      ∀ n, (n < 64 * k.toNat ∨ 64 * k.toNat + 64 ≤ n) → m.read n = (s.array (bufHome s.cfg .nv)).read n := by
  obtain ⟨t, hstore, -, ⟨m, rfl⟩, hin, hout⟩ :=
    storeEntries_ok k (List.finRange 16) (List.nodup_finRange 16) s hs fun i _ => slotOffset_lt h i
  simp only [State.setArray_peek_same] at hin hout
  refine ⟨m, hstore, fun i => hin i (List.mem_finRange i), fun n hn => hout n fun i _ j hj => ?_⟩
  have hlo := le_slotOffset k i
  have hhi := slotOffset_add_four_le k i
  omega

/-- Past the end of the store BSTORE writes the bytes that the store has (log entry 9). -/
theorem storeBank_faulted {s : State} {k : Slot} (hs : s.buffersOk) (h : bufSize s.cfg .nv < 64 * k.toNat + 64) :
    ∃ m : Memory,
      storeBank k s = .faulted ((s.setArray (bufHome s.cfg .nv) m).raiseFault .indexOutOfRange) ∧
      (∀ (i : Fin 16), ∀ j < 4, slotOffset k i + j < bufSize s.cfg .nv →
        m.read (slotOffset k i + j) = bigEndianByte s.bank[i] j) ∧
      ∀ n, (n < 64 * k.toNat ∨ bufSize s.cfg .nv ≤ n) → m.read n = (s.array (bufHome s.cfg .nv)).read n := by
  obtain ⟨t, hstore, ⟨m, rfl⟩, hin, hout⟩ :=
    storeEntries_faulted k (List.finRange 16) (List.pairwise_lt_finRange 16) s hs (exists_slotOffset_past h)
  simp only [State.setArray_peek_same] at hin hout
  refine ⟨m, hstore, fun i => hin i (List.mem_finRange i), fun n hn => hout n (hn.symm.imp_right ?_)⟩
  intro hbelow i _ j _
  have hlo := le_slotOffset k i
  omega

theorem State.setArray_raiseFault (s : State) (b : Buf) (m : Memory) (r : Fault) :
    (s.setArray b m).raiseFault r = (s.raiseFault r).setArray b m := by
  cases b
  · rfl
  · rfl
  · rfl

/-- Settles O39: the storing loop over all sixteen entries, to a store that holds the slot and to one that does
not. -/
theorem bankStoreFillsTheSlot : Obligations.BankStoreFillsTheSlot := by
  intro s la k hs
  have hs' : s.checkReady.buffersOk := hs
  refine ⟨fun h => ?_, fun h => ?_⟩
  · obtain ⟨m, hwork, hin, hout⟩ := storeBank_ok hs' h
    refine ⟨m, congrArg Host.Outcome.next ?_, fun i => ?_, fun n hn => ?_⟩
    · rw [bankCommand_of_ok hwork, State.setArray_waitSet, State.setArray_cfg]
      rfl
    · exact ⟨hin i 0 (by omega), hin i 1 (by omega), hin i 2 (by omega), hin i 3 (by omega)⟩
    · rw [hout n hn, State.checkReady_array, State.checkReady_cfg]
  · obtain ⟨m, hwork, hin, hout⟩ := storeBank_faulted hs' h
    refine ⟨m, congrArg Host.Outcome.next ?_, fun i j => hin i j j.isLt, fun n hn => ?_⟩
    · rw [bankCommand_of_faulted hwork, State.setArray_raiseFault, State.raiseFault_eq]
      rfl
    · rw [hout n hn, State.checkReady_array, State.checkReady_cfg]

/-- The bytes of the slot that BSTORE leaves. -/
theorem peek_bankCommand_storeBank {s : State} {k : Slot} (hs : s.buffersOk)
    (h : 64 * k.toNat + 64 ≤ bufSize s.cfg .nv) (i : Fin 16) {j : Nat} (hj : j < 4) :
    (bankCommand (storeBank k) s).peek .nv (slotOffset k i + j) = bigEndianByte s.bank[i] j := by
  have hs' : s.checkReady.buffersOk := hs
  obtain ⟨m, hwork, hin, -⟩ := storeBank_ok hs' h
  rw [bankCommand_of_ok hwork, State.waitSet_peek, State.setArray_peek_same]
  exact hin i j hj

/-- Settles O41: the slot still holds the stored bytes, and four big-endian bytes of a word give the word. -/
theorem storeThenLoadRestoresTheBank : Obligations.StoreThenLoadRestoresTheBank := by
  intro s t u w la la' k hs hsize hstore hsize' hkept hload
  cases hstore
  cases hload
  have hbank : (bankCommand (loadBank k) u).bank = Vector.ofFn (u.slotWord k) := by
    have hwork : loadBank k u.checkReady = _ := loadBank_ok hsize'
    rw [bankCommand_of_ok hwork]
    rfl
  rw [hbank]
  ext1 i hi
  rw [Vector.getElem_ofFn]
  refine State.slotWord_of_bytes fun j hj => ?_
  have hlo := le_slotOffset k ⟨i, hi⟩
  have hhi := slotOffset_add_four_le k ⟨i, hi⟩
  rw [hkept _ (by omega) (by omega), peek_bankCommand_storeBank hs hsize _ hj]
  rfl

/-- Settles O42: each byte of the slot is the same byte of the same bank entry after both stores. -/
theorem storingTwiceLeavesTheSameSlot : Obligations.StoringTwiceLeavesTheSameSlot := by
  intro s t u w la la' k hs hsize hstore hs' hsize' hbank hstore' n hlo hhi
  cases hstore
  cases hstore'
  obtain ⟨i, j, hj, rfl⟩ := exists_eq_slotOffset_add hlo hhi
  rw [peek_bankCommand_storeBank hs hsize i hj, peek_bankCommand_storeBank hs' hsize' i hj, hbank]

end Sys2Proof.Machine
end

section
/-!
The ready line as the trace tells it (10 R23): an event of a device leaves the level, `NotifyReady` drives it, and every
step keeps `ready` at it.
-/

namespace Sys2Proof.Machine

/-! ### The level of a trace -/

@[simp] theorem levelOf_concat (t : List Event) (e : Event) : levelOf (t ++ [e]) = levelAfter (levelOf t) e := by
  simp [levelOf]

theorem levelAfter_of_isDeviceEvent {e : Event} (h : isDeviceEvent e = true) (level : Bool) :
    levelAfter level e = level := by
  cases e with
  | notifyReady b => cases h
  | requestSoftReset => cases h
  | devRead dev a => rfl
  | devWrite dev a d => rfl

theorem levelOf_append_of_isDeviceEvent (t : List Event) {devs : List Event}
    (h : ∀ e ∈ devs, isDeviceEvent e = true) : levelOf (t ++ devs) = levelOf t := by
  induction devs generalizing t with
  | nil => rw [List.append_nil]
  | cons e devs ih =>
    obtain ⟨he, hdevs⟩ := List.forall_mem_cons.mp h
    rw [List.append_cons, ih _ hdevs, levelOf_concat, levelAfter_of_isDeviceEvent he]

/-! ### The transactions -/

theorem WorkEffect.keeps_lineOk {s t : State} (h : WorkEffect s t) (hs : s.lineOk) : t.lineOk := by
  obtain ⟨devs, hdevs, ht⟩ := h.trace
  calc t.ready = s.ready := h.ready
    _ = levelOf s.trace := hs
    _ = levelOf t.trace := by rw [ht, levelOf_append_of_isDeviceEvent _ hdevs]

/-- An access that faults has emitted device events only; any other one drops the line and says so last (43 R109,
44 R117). -/
theorem AccessResult.keeps_lineOk {s t : State} (h : AccessResult s t) (hs : s.lineOk) : t.lineOk := by
  obtain ⟨mid, hw, ⟨rfl, -⟩ | ⟨-, c, n, vs, -, -, rfl⟩⟩ := h.result
  · exact hw.keeps_lineOk hs
  · exact (levelOf_concat mid.trace (.notifyReady false)).symm

theorem State.countDown_keeps_lineOk {s : State} (hs : s.lineOk) : s.countDown.lineOk := by
  unfold State.countDown
  split_ifs
  · exact (levelOf_concat s.trace (.notifyReady true)).symm
  · exact hs

theorem exec_keeps_lineOk {i : Instr} {s t : State} (hs : s.lineOk) (h : exec i s = .next t) : t.lineOk := by
  cases exec_effect h with
  | access _ ha => exact ha.keeps_lineOk hs
  | ctlDsr v => exact hs
  | request _ => exact hs.trans (levelOf_concat s.trace .requestSoftReset).symm
  | lineCru level => exact hs
  | linePtgen level => exact hs
  | count _ _ => exact State.countDown_keeps_lineOk hs
  | reset => exact (levelOf_concat s.trace (.notifyReady true)).symm
  | nothing _ _ => exact hs

/-- Settles O52: an idle step keeps the state, and every transaction drives the line exactly as it notifies. -/
theorem everyStepKeepsTheReadyLine : Obligations.EveryStepKeepsTheReadyLine := by
  intro s t hs h
  obtain rfl | ⟨i, rest, -, hexec⟩ := step_next_cases h
  · exact hs
  · exact exec_keeps_lineOk (s := { s with inbox := rest }) hs hexec

end Sys2Proof.Machine
end

section
/-!
The control writes without effect (43 R102, R103), the cases of TICK (43 R105), and the counter over any transactions
other than a bus access and RESET: `n` qualifying ticks take it `n` down, and the tick that stops it raises the line
(43 R107).
-/

namespace Sys2Proof.Machine

/-- Settles O45: both answer the state they start from. -/
theorem otherControlWritesDoNothing : Obligations.OtherControlWritesDoNothing := by
  intro s ca v
  exact ⟨rfl, rfl⟩

/-! ### TICK -/

section Tick

variable {s : State}

theorem State.countDown_of_last (h : s.wait = 1) :
    s.countDown = { s with wait := 0, ready := true, trace := s.trace ++ [.notifyReady true] } := if_pos h

theorem State.countDown_of_not_last (h : s.wait ≠ 1) : s.countDown = { s with wait := s.wait - 1 } := if_neg h

theorem exec_tick_of_stopped (h : s.wait = 0) (edge : Bool) : exec (.tick edge) s = .next s := by
  simp [exec, execTick, h]

theorem exec_tick_of_other_edge {edge : Bool} (h : edge ≠ s.cfg.qualEdge) : exec (.tick edge) s = .next s := by
  simp [exec, execTick, h]

theorem exec_tick_of_running (h : s.wait ≠ 0) : exec (.tick s.cfg.qualEdge) s = .next s.countDown := by
  simp [exec, execTick, h]

end Tick

/-- Settles O47: a stopped counter and the other edge leave the state, and a counting tick counts down. -/
theorem tickCountsDown : Obligations.TickCountsDown := by
  intro s edge
  refine ⟨fun h => exec_tick_of_stopped h edge, exec_tick_of_other_edge, ?_, ?_⟩
  · rintro rfl h
    rw [exec_tick_of_running (by omega), State.countDown_of_last h]
  · rintro rfl h
    rw [exec_tick_of_running (by omega), State.countDown_of_not_last (by omega)]

/-! ### Qualifying ticks -/

/-- The `NotifyReady(true)` events of a state: those emitted, and the one that a running counter still owes. -/
def State.readies (s : State) : Nat := s.trace.count (.notifyReady true) + if s.wait = 0 then 0 else 1

theorem State.readies_of_stopped {s : State} (h : s.wait = 0) : s.readies = s.trace.count (.notifyReady true) := by
  simp [State.readies, h]

theorem State.readies_of_running {s : State} (h : s.wait ≠ 0) :
    s.readies = s.trace.count (.notifyReady true) + 1 := by
  simp [State.readies, h]

/-- What `n` qualifying ticks do between `s` and `t`: the counter goes `n` down and stops at 0, the line still tells
whether it has stopped, and a notification that was owed is owed or emitted (43 R105). -/
structure Elapsed (n : Nat) (s t : State) : Prop where
  cfg     : t.cfg = s.cfg
  wait    : t.wait = s.wait - n
  ready   : s.ready = decide (s.wait = 0) → t.ready = decide (t.wait = 0)
  readies : t.readies = s.readies

theorem Elapsed.trans {m n : Nat} {s t u : State} (h : Elapsed m s t) (h' : Elapsed n t u) :
    Elapsed (m + n) s u where
  cfg := h'.cfg.trans h.cfg
  wait := by rw [h'.wait, h.wait, Nat.sub_sub]
  ready hs := h'.ready (h.ready hs)
  readies := h'.readies.trans h.readies

/-- A state with the same counter and line, and no further `NotifyReady(true)`. -/
theorem Elapsed.of_kept {s t : State} (hcfg : t.cfg = s.cfg) (hw : t.wait = s.wait) (hr : t.ready = s.ready)
    (ht : t.trace.count (.notifyReady true) = s.trace.count (.notifyReady true)) : Elapsed 0 s t where
  cfg := hcfg
  wait := hw
  ready hs := by rw [hr, hw, hs]
  readies := by rw [State.readies, State.readies, ht, hw]

theorem Elapsed.of_stopped {s : State} (h : s.wait = 0) (n : Nat) : Elapsed n s s :=
  ⟨rfl, by omega, id, rfl⟩

theorem State.countDown_elapsed {s : State} (h : s.wait ≠ 0) : Elapsed 1 s s.countDown := by
  by_cases h1 : s.wait = 1
  · rw [State.countDown_of_last h1]
    refine ⟨rfl, by simp [h1], fun _ => rfl, ?_⟩
    rw [State.readies_of_running h, State.readies_of_stopped rfl]
    simp
  · rw [State.countDown_of_not_last h1]
    have hrun : s.wait - 1 ≠ 0 := by omega
    refine ⟨rfl, rfl, fun hs => by simp [hs, h, hrun], ?_⟩
    rw [State.readies_of_running h, State.readies_of_running hrun]

theorem exec_qualifying_tick_elapsed {s t : State} (h : exec (.tick s.cfg.qualEdge) s = .next t) :
    Elapsed 1 s t := by
  by_cases hw : s.wait = 0
  · rw [exec_tick_of_stopped hw] at h
    cases h
    exact .of_stopped hw 1
  · rw [exec_tick_of_running hw] at h
    cases h
    exact State.countDown_elapsed hw

/-- CTL, LINE and a tick on the other edge leave the counter, the line and its notifications alone. -/
theorem exec_other_elapsed {i : Instr} {s t : State} (hi : isAccess i = false) (hr : i ≠ .reset)
    (hq : i ≠ .tick s.cfg.qualEdge) (h : exec i s = .next t) : Elapsed 0 s t := by
  cases exec_effect h with
  | access hi' _ => simp [hi] at hi'
  | ctlDsr v => exact .of_kept rfl rfl rfl rfl
  | request _ => exact .of_kept rfl rfl rfl (by simp)
  | lineCru level => exact .of_kept rfl rfl rfl rfl
  | linePtgen level => exact .of_kept rfl rfl rfl rfl
  | count _ he => exact absurd (congrArg Instr.tick he) hq
  | reset => exact absurd rfl hr
  | nothing _ _ => exact .of_kept rfl rfl rfl rfl

theorem exec_elapsed {i : Instr} {s t : State} (hi : isAccess i = false) (hr : i ≠ .reset)
    (h : exec i s = .next t) : Elapsed ([i].count (.tick s.cfg.qualEdge)) s t := by
  by_cases hq : i = .tick s.cfg.qualEdge
  · rw [hq, List.count_singleton_self]
    exact exec_qualifying_tick_elapsed (hq ▸ h)
  · rw [List.count_eq_zero.mpr (by simpa using Ne.symm hq)]
    exact exec_other_elapsed hi hr hq h

/-- No transaction stops the machine: a model fault is a next state too (60 R124). -/
theorem exec_answers_next (i : Instr) (s : State) : ∃ t, exec i s = .next t := by
  cases i <;> exact ⟨_, rfl⟩

theorem execAll_elapsed {is : List Instr} (his : ∀ i ∈ is, isAccess i = false ∧ i ≠ .reset) (s : State) :
    ∃ t, execAll is s = .next t ∧ Elapsed (is.count (.tick s.cfg.qualEdge)) s t := by
  induction is generalizing s with
  | nil => exact ⟨s, rfl, .of_kept rfl rfl rfl rfl⟩
  | cons i is ih =>
    obtain ⟨⟨hi, hr⟩, his'⟩ := List.forall_mem_cons.mp his
    obtain ⟨u, hu⟩ := exec_answers_next i s
    have hfirst := exec_elapsed hi hr hu
    obtain ⟨t, ht, hrest⟩ := ih his' u
    rw [hfirst.cfg] at hrest
    refine ⟨t, by simpa only [execAll, hu] using ht, ?_⟩
    rw [← List.singleton_append, List.count_append]
    exact hfirst.trans hrest

/-- Settles O50: the counter runs until as many qualifying ticks have come as it held, and the notification that it owed
at first is emitted exactly when it stops. -/
theorem readyReturnsAtTheLastQualifyingTick : Obligations.ReadyReturnsAtTheLastQualifyingTick := by
  intro s is hw hready his
  obtain ⟨t, ht, h⟩ := execAll_elapsed his s
  have hrun : s.wait ≠ 0 := by omega
  have hline := h.ready (by simp [hready, hrun])
  have howed := h.readies
  rw [State.readies_of_running hrun] at howed
  refine ⟨t, ht, fun hlt => ?_, fun hle => ?_⟩
  · have hrun' : t.wait ≠ 0 := by
      rw [h.wait]
      omega
    rw [State.readies_of_running hrun'] at howed
    exact ⟨h.wait, by simpa [hrun'] using hline, Nat.succ.inj howed⟩
  · have hstop : t.wait = 0 := by
      rw [h.wait]
      omega
    rw [State.readies_of_stopped hstop] at howed
    exact ⟨hstop, by simpa [hstop] using hline, howed⟩

end Sys2Proof.Machine
end

section
/-!
An access that ends in a model fault (00 R9; 60 R126, R127): its actions run up to the one that faults, whose state is
where the transaction ends. An index past the end of its buffer or image faults, and so does a device that calls back.
-/

namespace Sys2Proof.Machine

/-! ### Actions up to the one that faults -/

/-- Actions run their first part, and then the rest from where that ended. -/
theorem actAll_append_of_ok {β : Type} {act : Entry → State → Flow β} {above : List Entry} {last r : Option β}
    {s t : State} (h : actAll act above last s = .ok r t) (es : List Entry) :
    actAll act (above ++ es) last s = actAll act es r t := by
  induction above generalizing last s with
  | nil =>
    cases h
    rfl
  | cons e above ih =>
    cases hx : act e s with
    | faulted u =>
      rw [actAll_cons_faulted hx] at h
      cases h
    | ok v u =>
      rw [actAll_cons_ok hx] at h
      rw [List.cons_append, actAll_cons_ok hx, ih h]

/-- The entries above one that faults keep their effects, and none below it acts (60 R127). -/
theorem actAll_append_cons_of_faulted {β : Type} {act : Entry → State → Flow β} {above : List Entry} {e : Entry}
    {last r : Option β} {s s1 t : State} (habove : actAll act above last s = .ok r s1) (h : act e s1 = .faulted t)
    (es : List Entry) : actAll act (above ++ e :: es) last s = .faulted t := by
  rw [actAll_append_of_ok habove, actAll_cons_faulted h]

/-- A read whose actions end in a fault ends where they ended, with no wait and no byte, at either level (44 R112). -/
theorem busRead_of_actAll_faulted {s t : State} {la : LAddr} {es : List Entry} {a : PAddr} {c : Nat}
    (hr : Reaches s .read la es a c) (h : actAll (actRead a) es none s.checkReady = .faulted t) :
    busRead la s = t := by
  obtain ⟨-, ⟨hes, rfl, -⟩ | ⟨hmiss, hes, rfl, -⟩⟩ := hr
  · rw [← hes, ← readLogical_eq_actAll] at h
    simp only [busRead, h]
  · rw [← hes, ← readPhysical_eq_actAll] at h
    simp only [busRead_of_miss hmiss, readFallback, h]

/-! ### The actions that fault -/

section Faults

variable {s : State} {e : Entry} {a : PAddr} {b : Buf} {dev : String} {rest : List DevReply}

theorem actRead_of_buffer_end (hb : bufferOf e = some b) (hi : bufSize s.cfg b ≤ (entryIndex e a).toNat) :
    actRead a e s = .faulted (s.raiseFault .indexOutOfRange) := by
  rw [actRead_of_bufferOf hb, memRead, if_neg (Nat.not_lt.mpr hi), raise]

theorem actRead_of_rom_end {off : PAddr} (hoff : romOffset s.cfg e = some off)
    (hi : s.cfg.romSize ≤ (off ||| entryIndex e a).toNat) :
    actRead a e s = .faulted (s.raiseFault .indexOutOfRange) := by
  rw [actRead_of_romOffset hoff, romRead, if_neg (Nat.not_lt.mpr hi), raise]

theorem actWrite_of_buffer_end (hb : bufferOf e = some b) (hi : bufSize s.cfg b ≤ (entryIndex e a).toNat) (d : Byte) :
    actWrite a d e s = .faulted (s.raiseFault .indexOutOfRange) := by
  rw [actWrite_of_bufferOf hb, memWrite, if_neg (Nat.not_lt.mpr hi), raise]

theorem actRead_of_reenter (hk : e.kind = .ext dev) (h : s.replies = .reenter :: rest) (a : PAddr) :
    actRead a e s = .faulted ((s.called (.devRead dev a) rest).raiseFault .nestedAccess) := by
  simp only [actRead_of_ext hk, deviceRead, h, raise, State.called]

theorem actWrite_of_reenter (hk : e.kind = .ext dev) (h : s.replies = .reenter :: rest) (a : PAddr) (d : Byte) :
    actWrite a d e s = .faulted ((s.called (.devWrite dev a d) rest).raiseFault .nestedAccess) := by
  rw [actWrite_of_ext hk, deviceWrite_of_reenter dev a d h]

end Faults

/-! ### The statements: past the end -/

/-- Settles O25: the only acting entry raises the fault, in the state that the access checked. -/
theorem readPastTheEndFaults : Obligations.ReadPastTheEndFaults := by
  intro s la e a c hr hend
  have hact : actRead a e s.checkReady = .faulted (s.checkReady.raiseFault .indexOutOfRange) := by
    obtain ⟨b, hb, hi⟩ | ⟨off, hoff, hi⟩ := hend
    · exact actRead_of_buffer_end hb hi
    · exact actRead_of_rom_end hoff hi
  have hbus := busRead_of_actAll_faulted hr (actAll_cons_faulted hact [] none)
  rw [State.raiseFault_eq] at hbus
  exact congrArg Host.Outcome.next hbus

/-- Settles O32: as for a read, the only acting entry raises the fault before it stores anything. -/
theorem writePastTheEndFaults : Obligations.WritePastTheEndFaults := by
  intro s la d e a c b hr hb hi
  have hact : actWrite a d e s.checkReady = .faulted (s.checkReady.raiseFault .indexOutOfRange) :=
    actWrite_of_buffer_end (s := s.checkReady) hb hi d
  have hbus := busWrite_of_actAll_faulted hr (actAll_cons_faulted hact [] none)
  rw [State.raiseFault_eq] at hbus
  exact congrArg Host.Outcome.next hbus

/-! ### The statements: a device that calls back -/

section Reentry

variable {s s1 : State} {la : LAddr} {above es : List Entry} {e : Entry} {a : PAddr} {c : Nat} {dev : String}
  {rest : List DevReply}

/-- A read ends at the device that calls back, in the state that the entries above it left. -/
theorem busRead_of_reenter {r : Option Byte} (hk : e.kind = .ext dev) (hr : Reaches s .read la (above ++ e :: es) a c)
    (habove : actAll (actRead a) above none s.checkReady = .ok r s1) (hreply : s1.replies = .reenter :: rest) :
    busRead la s =
      { s1 with
        trace := s1.trace ++ [.devRead dev a], replies := rest, fault := some (s1.fault.getD .nestedAccess) } := by
  have hact := actRead_of_reenter hk hreply a
  rw [busRead_of_actAll_faulted hr (actAll_append_cons_of_faulted habove hact es), State.raiseFault_eq]
  rfl

/-- A write ends at the device that calls back, in the state that the entries above it left. -/
theorem busWrite_of_reenter {r : Option Unit} {d : Byte} (hk : e.kind = .ext dev)
    (hr : Reaches s .write la (above ++ e :: es) a c)
    (habove : actAll (actWrite a d) above none s.checkReady = .ok r s1) (hreply : s1.replies = .reenter :: rest) :
    busWrite la d s =
      { s1 with
        trace := s1.trace ++ [.devWrite dev a d], replies := rest, fault := some (s1.fault.getD .nestedAccess) } := by
  have hact := actWrite_of_reenter hk hreply a d
  rw [busWrite_of_actAll_faulted hr (actAll_append_cons_of_faulted habove hact es), State.raiseFault_eq]
  rfl

end Reentry

/-- Settles O26: a device that acts first has no entry above it, so nothing but the check comes before its call. -/
theorem reentryDuringAReadFaults : Obligations.ReentryDuringAReadFaults := by
  intro s la e es a c dev rest hk
  refine ⟨fun hr hreply => congrArg Host.Outcome.next ?first, fun above r s1 hr habove hreply =>
    congrArg Host.Outcome.next (busRead_of_reenter hk hr habove hreply)⟩
  case first => exact busRead_of_reenter (above := []) (s1 := s.checkReady) hk hr rfl hreply

/-- The check of the ready line reads no buffer and a store writes no record, so their order is free. -/
theorem State.checkReady_poke (s : State) (b : Buf) (i : Nat) (v : Byte) :
    s.checkReady.poke b i v = (s.poke b i v).checkReady := by
  simp only [State.poke, State.checkReady_cfg, State.checkReady_array]
  cases bufHome s.cfg b
  · rfl
  · rfl
  · rfl

/-- Settles O33: a buffer's entry above the device has stored its byte when the device is called. -/
theorem reentryKeepsEarlierEffects : Obligations.ReentryKeepsEarlierEffects := by
  intro s la d e es a c dev rest hk
  refine ⟨fun above r s1 hr habove hreply => congrArg Host.Outcome.next (busWrite_of_reenter hk hr habove hreply),
    fun e1 b hr hb hi hreply => congrArg Host.Outcome.next ?buffer⟩
  case buffer =>
    have hstore : actWrite a d e1 s.checkReady = .ok () (s.poke b (entryIndex e1 a).toNat d).checkReady := by
      rw [actWrite_of_bufferOf hb, memWrite, State.checkReady_cfg, if_pos hi, State.checkReady_poke]
    rw [busWrite_of_reenter (above := [e1]) hk hr (actAll_singleton hstore none) (by simpa using hreply)]
    simp

end Sys2Proof.Machine
end

section
/-!
The wait count of an access that ends without a model fault (44 R117): that of the level that serves it, and of the
logical level for a bank command.
-/

namespace Sys2Proof.Machine

theorem readFallback_wait (la : LAddr) (s : State) :
    (readFallback la s).fault = none → (readFallback la s).wait = s.cfg.waitPhysical := by
  have hP := readPhysical_actFlow la s
  unfold readFallback
  split
  case h_1 t h => exact fun hf => absurd hf (hP.faulted t h)
  case h_2 v t h => exact fun _ => congrArg Config.waitPhysical (hP.effect_of_ok h).cfg
  case h_3 t h => exact fun _ => congrArg Config.waitPhysical (hP.effect_of_ok h).cfg

theorem writeFallback_wait (la : LAddr) (d : Byte) (s : State) :
    (writeFallback la d s).fault = none → (writeFallback la d s).wait = s.cfg.waitPhysical := by
  have hP := writePhysical_actFlow la d s
  unfold writeFallback
  split
  case h_1 t h => exact fun hf => absurd hf (hP.faulted t h)
  case h_2 r t h => exact fun _ => congrArg Config.waitPhysical (hP.effect_of_ok h).cfg

theorem busRead_wait_of_hit {la : LAddr} {s : State} (hhit : actingLogical s .read la ≠ []) :
    (busRead la s).fault = none → (busRead la s).wait = s.cfg.waitLogical := by
  have hL := readLogical_actFlow la s.checkReady
  unfold busRead
  split
  case h_1 t h => exact fun hf => absurd hf (hL.faulted t h)
  case h_2 v t h => exact fun _ => congrArg Config.waitLogical (hL.effect_of_ok h).cfg
  case h_3 t h => exact absurd (scan_eq_ok_none_iff.mp h).1 hhit

theorem busWrite_wait_of_hit {la : LAddr} {d : Byte} {s : State} (hhit : actingLogical s .write la ≠ []) :
    (busWrite la d s).fault = none → (busWrite la d s).wait = s.cfg.waitLogical := by
  have hL := writeLogical_actFlow la d s.checkReady
  unfold busWrite
  split
  case h_1 t h => exact fun hf => absurd hf (hL.faulted t h)
  case h_2 t h => exact fun _ => congrArg Config.waitLogical (hL.effect_of_ok h).cfg
  case h_3 t h => exact absurd (scan_eq_ok_none_iff.mp h).1 hhit

/-- The wait count of a bank command is the logical one, whatever its work (92 D15). -/
theorem bankCommand_wait {work : State → Flow Unit} (hw : ∀ s, WorkFlow s (work s)) (s : State) :
    (bankCommand work s).fault = none → (bankCommand work s).wait = s.cfg.waitLogical := by
  have hwork := hw s.checkReady
  cases h : work s.checkReady with
  | faulted t =>
    rw [bankCommand_of_faulted h]
    exact fun hf => absurd hf (hwork.faulted t h)
  | ok _ t =>
    rw [h] at hwork
    rw [bankCommand_of_ok h]
    exact fun _ => congrArg Config.waitLogical hwork.effect.cfg

/-- Settles O59: RD and WR by whether the logical level misses, the bank commands by their common end. -/
theorem waitCountOfEachAccess : Obligations.WaitCountOfEachAccess := by
  intro s t
  refine ⟨fun la h hf => ?rd, fun la d h hf => ?wr, fun la k h hf => ?bload, fun la k h hf => ?bstore,
    fun la d h => ?bcmdIgn⟩
  case rd =>
    cases h
    split_ifs with hmiss
    · rw [busRead_of_miss hmiss] at hf ⊢
      exact readFallback_wait la s.checkReady hf
    · exact busRead_wait_of_hit hmiss hf
  case wr =>
    cases h
    split_ifs with hmiss
    · rw [busWrite_of_miss hmiss] at hf ⊢
      exact writeFallback_wait la d s.checkReady hf
    · exact busWrite_wait_of_hit hmiss hf
  case bload =>
    cases h
    exact bankCommand_wait (loadEntries_workFlow k _) s hf
  case bstore =>
    cases h
    exact bankCommand_wait (storeEntries_workFlow k _) s hf
  case bcmdIgn =>
    cases h
    rfl

end Sys2Proof.Machine
end

section
/-!
The buffers, the protocol record and the senders of the outputs: what each transaction leaves of them (10 R24, R28;
43 R101, R108; 44 R118, R119), read off what a transaction can do.
-/

namespace Sys2Proof.Machine

/-! ### The buffers -/

theorem AccessResult.keeps_buffersOk {s t : State} (h : AccessResult s t) (hs : s.buffersOk) : t.buffersOk := by
  obtain ⟨mid, hw, ⟨rfl, -⟩ | ⟨-, c, n, vs, -, -, rfl⟩⟩ := h.result
  · exact hw.buffers hs
  · exact hw.buffers hs

theorem State.countDown_keeps_buffersOk {s : State} (hs : s.buffersOk) : s.countDown.buffersOk := by
  unfold State.countDown
  split_ifs
  · exact hs
  · exact hs

theorem exec_keeps_buffersOk {i : Instr} {s t : State} (hs : s.buffersOk) (h : exec i s = .next t) :
    t.buffersOk := by
  cases exec_effect h with
  | access _ ha => exact ha.keeps_buffersOk hs
  | ctlDsr v => exact hs
  | request _ => exact hs
  | lineCru level => exact hs
  | linePtgen level => exact hs
  | count _ _ => exact State.countDown_keeps_buffersOk hs
  | reset => exact hs
  | nothing _ _ => exact hs

/-- Settles O53: an idle step keeps the state, the work of a bus access stores within the sizes and in canonical form,
and no other transaction touches a buffer. -/
theorem everyStepKeepsTheBuffers : Obligations.EveryStepKeepsTheBuffers := by
  intro s t hs h
  obtain rfl | ⟨i, rest, -, hexec⟩ := step_next_cases h
  · exact hs
  · exact exec_keeps_buffersOk (s := { s with inbox := rest }) hs hexec

/-! ### The protocol record -/

/-- The record is set by CHECKREADY, and the rest of an access leaves it (44 R119). -/
theorem AccessResult.violation {s t : State} (h : AccessResult s t) : t.violation = (s.violation || !s.ready) := by
  obtain ⟨mid, hw, ⟨rfl, -⟩ | ⟨-, c, n, vs, -, -, rfl⟩⟩ := h.result
  · exact hw.violation
  · exact hw.violation

theorem State.countDown_violation (s : State) : s.countDown.violation = s.violation := by
  unfold State.countDown
  split_ifs
  · rfl
  · rfl

theorem exec_violation_of_not_access {i : Instr} (hi : isAccess i = false) {s t : State} (h : exec i s = .next t) :
    t.violation = s.violation := by
  cases exec_effect h with
  | access hi' _ => simp [hi] at hi'
  | ctlDsr v => rfl
  | request _ => rfl
  | lineCru level => rfl
  | linePtgen level => rfl
  | count _ _ => exact s.countDown_violation
  | reset => rfl
  | nothing _ _ => rfl

/-- CTL and LINE leave the counter and the ready line alone (43 R108). -/
theorem exec_wait_ready_of_ctl_or_line {i : Instr} (hi : isAccess i = false) (hr : i ≠ .reset)
    (ht : ∀ edge, i ≠ .tick edge) {s t : State} (h : exec i s = .next t) : t.wait = s.wait ∧ t.ready = s.ready := by
  cases exec_effect h with
  | access hi' _ => simp [hi] at hi'
  | ctlDsr v => exact ⟨rfl, rfl⟩
  | request _ => exact ⟨rfl, rfl⟩
  | lineCru level => exact ⟨rfl, rfl⟩
  | linePtgen level => exact ⟨rfl, rfl⟩
  | count _ _ => exact absurd rfl (ht _)
  | reset => exact absurd rfl hr
  | nothing _ _ => exact ⟨rfl, rfl⟩

/-- Settles O56: the record of an access is that of its check, and any other transaction writes neither it nor, but
for TICK and RESET, the counter and the line. -/
theorem violationExactlyOnAnEarlyAccess : Obligations.ViolationExactlyOnAnEarlyAccess := by
  intro i s t h
  exact ⟨fun hi => (access_result hi h).violation, fun hi => exec_violation_of_not_access hi h,
    fun hi hr ht => exec_wait_ready_of_ctl_or_line hi hr ht h⟩

/-! ### The senders of the outputs -/

theorem WorkEffect.count_trace {s t : State} (h : WorkEffect s t) {e : Event} (he : isDeviceEvent e = false) :
    t.trace.count e = s.trace.count e := by
  obtain ⟨devs, hdevs, ht⟩ := h.trace
  have hnone : e ∉ devs := fun hmem => by simp [hdevs e hmem] at he
  rw [ht, List.count_append, List.count_eq_zero.mpr hnone, Nat.add_zero]

/-- A bus access emits device events and `NotifyReady(false)`, and nothing else (44 R118). -/
theorem AccessResult.count_trace {s t : State} (h : AccessResult s t) {e : Event} (he : isDeviceEvent e = false)
    (hn : e ≠ .notifyReady false) : t.trace.count e = s.trace.count e := by
  obtain ⟨mid, hw, ⟨rfl, -⟩ | ⟨-, c, n, vs, -, -, rfl⟩⟩ := h.result
  · exact hw.count_trace he
  · have hlast : (mid.trace ++ [Event.notifyReady false]).count e = mid.trace.count e := by simp [hn.symm]
    exact hlast.trans (hw.count_trace he)

theorem State.countDown_count_requestSoftReset (s : State) :
    s.countDown.trace.count .requestSoftReset = s.trace.count .requestSoftReset := by
  unfold State.countDown
  split_ifs
  · simp
  · rfl

theorem exec_count_notifyReady_true {i : Instr} (hr : i ≠ .reset) (ht : ∀ edge, i ≠ .tick edge) {s t : State}
    (h : exec i s = .next t) : t.trace.count (.notifyReady true) = s.trace.count (.notifyReady true) := by
  cases exec_effect h with
  | access _ ha => exact ha.count_trace rfl (by simp)
  | ctlDsr v => rfl
  | request _ => simp
  | lineCru level => rfl
  | linePtgen level => rfl
  | count _ _ => exact absurd rfl (ht _)
  | reset => exact absurd rfl hr
  | nothing _ _ => rfl

theorem exec_count_requestSoftReset {i : Instr} (hc : ∀ v, i ≠ .ctlRst v) {s t : State} (h : exec i s = .next t) :
    t.trace.count .requestSoftReset = s.trace.count .requestSoftReset := by
  cases exec_effect h with
  | access _ ha => exact ha.count_trace rfl (by simp)
  | ctlDsr v => rfl
  | request _ => exact absurd rfl (hc _)
  | lineCru level => rfl
  | linePtgen level => rfl
  | count _ _ => exact s.countDown_count_requestSoftReset
  | reset => simp
  | nothing _ _ => rfl

/-- Settles O60: no transaction but TICK and RESET adds a `NotifyReady(true)`, and none but CTL_RST a request. -/
theorem eventsHaveTheirSenders : Obligations.EventsHaveTheirSenders := by
  intro i s t h
  exact ⟨fun hr ht => exec_count_notifyReady_true hr ht h, fun hc => exec_count_requestSoftReset hc h⟩

end Sys2Proof.Machine
end

section
/-!
The checks of a configuration (00 R7) and the classes of a control call (30 R52), which share the membership of an
address in a set of ranges.
-/

namespace Sys2Proof.Machine

/-! ### Sets of addresses -/

theorem inRanges_iff {rs : List AddrRange} {a : Nat} : inRanges rs a = true ↔ ∃ r ∈ rs, r.lo ≤ a ∧ a ≤ r.hi := by
  simp [inRanges]

theorem inRanges_eq_false_iff {rs : List AddrRange} {a : Nat} :
    inRanges rs a = false ↔ ∀ r ∈ rs, ¬(r.lo ≤ a ∧ a ≤ r.hi) := by
  rw [← Bool.not_eq_true, inRanges_iff]
  push Not
  rfl

/-- Settles O5: a call that fits its port decodes by its address, class by class in the order of 30 R52. -/
theorem controlClassification : Obligations.ControlClassification := by
  intro cfg ca v ha hv
  rw [decode_ctl_of_fits (decide_eq_true ha) (decide_eq_true hv)]
  refine ⟨?dsr, ?reset, fun hdsr hrst haux => ?aux, fun hdsr hrst haux => ?other⟩
  case dsr =>
    rintro rfl
    rw [decodeCtl_dsr]
  case reset =>
    rintro hdsr rfl
    rw [decodeCtl_reset hdsr]
  case aux => rw [decodeCtl_aux hdsr hrst (inRanges_iff.mpr haux)]
  case other => rw [decodeCtl_other hdsr hrst (inRanges_eq_false_iff.mpr haux)]

/-! ### The checks (a) to (f) -/

theorem deviceKnown_iff {devices : List String} {e : Entry} :
    deviceKnown devices e = true ↔ ∀ dev, e.kind = .ext dev → dev ∈ devices := by
  cases hk : e.kind with
  | pseudo p => simp [deviceKnown, hk]
  | ext dev => simp [deviceKnown, hk]

theorem controlDisjoint_iff {cfg : Config} :
    controlDisjoint cfg = true ↔ cfg.ctrlDsrAddr ≠ cfg.ctrlResetAddr ∧
      (∀ r ∈ cfg.auxSerialRange, ¬(r.lo ≤ cfg.ctrlDsrAddr ∧ cfg.ctrlDsrAddr ≤ r.hi)) ∧
      (∀ r ∈ cfg.auxSerialRange, ¬(r.lo ≤ cfg.ctrlResetAddr ∧ cfg.ctrlResetAddr ≤ r.hi)) := by
  rw [controlDisjoint, Bool.and_eq_true, Bool.and_eq_true, bne_iff_ne, Bool.not_eq_true', Bool.not_eq_true',
    inRanges_eq_false_iff, inRanges_eq_false_iff, and_assoc]

/-- The model's check of a configuration is the conjunction of the checks of 00 R7. -/
theorem configAccepted_iff {cfg : Config} :
    configAccepted cfg = true ↔
      (∀ e ∈ cfg.logical, e.mask.toNat < 2 ^ 16 ∧ e.pattern.toNat < 2 ^ 16 ∧ e.wsel.toNat < 2 ^ 16) ∧
      (∀ e ∈ cfg.logical, e.mode ≠ .physical) ∧ (∀ e ∈ cfg.physical, e.mode = .physical) ∧
      (∀ e ∈ cfg.logical ++ cfg.physical, ∀ dev, e.kind = .ext dev → dev ∈ cfg.devices) ∧
      1 ≤ cfg.waitLogical ∧ 1 ≤ cfg.waitPhysical ∧ 512 ≤ cfg.nvSize ∧
      cfg.ctrlDsrAddr ≠ cfg.ctrlResetAddr ∧
      (∀ r ∈ cfg.auxSerialRange, ¬(r.lo ≤ cfg.ctrlDsrAddr ∧ cfg.ctrlDsrAddr ≤ r.hi)) ∧
      (∀ r ∈ cfg.auxSerialRange, ¬(r.lo ≤ cfg.ctrlResetAddr ∧ cfg.ctrlResetAddr ≤ r.hi)) := by
  simp only [configAccepted, Bool.and_eq_true, List.all_eq_true, entryIsNarrow, decide_eq_true_eq, bne_iff_ne,
    beq_iff_eq, deviceKnown_iff, controlDisjoint_iff, List.forall_mem_append, and_assoc]

theorem fetch_eq_noConfig_iff {s : State} : fetch s = .noConfig ↔ ¬configAccepted s.cfg = true := by
  unfold fetch
  split_ifs with hcfg
  · cases s.inbox with
    | nil => simp [hcfg]
    | cons c rest => cases hd : decode s.cfg c <;> simp [hd, hcfg]
  · simp [hcfg]

/-- The check of the configuration in the fetch is the only one that refuses it: no transaction does. -/
theorem step_eq_refused_configRefused_iff {s : State} :
    step s = .refused .configRefused ↔ fetch s = .noConfig := by
  unfold step
  cases fetch s with
  | noConfig => simp
  | idle => simp
  | rejected r => simp
  | instr i s' =>
    obtain ⟨t, ht⟩ := exec_answers_next i s'
    simp [ht]

/-- Settles O8: the step refuses the configuration exactly where its check fails, and the check is (a) to (f). -/
theorem illFormedConfigurationIsRefused : Obligations.IllFormedConfigurationIsRefused := by
  intro s
  rw [step_eq_refused_configRefused_iff, fetch_eq_noConfig_iff, configAccepted_iff]

end Sys2Proof.Machine
end

section
/-!
One comparator (40 R64 to R67, R71; 42 R91): when it matches, when the mode flags let it through, when a scan finds
it, and which ROM bytes two of them share.
-/

namespace Sys2Proof.Machine

/-! ### The match -/

section Match

variable {e : Entry} {a : PAddr} {dir : Dir}

theorem entryMatches_iff : entryMatches e dir a = true ↔ a &&& e.mask = entryTarget e dir := by
  simp [entryMatches]

/-- A masked address has no bit outside the mask, so a target with such a bit is never met. -/
theorem entryMatches_eq_false_of_target_outside (h : entryTarget e dir &&& ~~~e.mask ≠ 0#32) :
    entryMatches e dir a = false := by
  rw [Bool.eq_false_iff, ne_eq, entryMatches_iff]
  intro hmatch
  rw [← hmatch, BitVec.and_assoc, BitVec.and_not_self] at h
  exact h BitVec.and_zero

/-- The target of a write has the bits of the pattern and the write-select bits. -/
theorem entryTarget_write_and_eq_zero_iff {m : PAddr} :
    entryTarget e .write &&& m = 0#32 ↔ e.pattern &&& m = 0#32 ∧ e.wsel &&& m = 0#32 := by
  rw [entryTarget, BitVec.and_or_distrib_right, BitVec.or_eq_zero_iff]

theorem entryMatches_eq_false_of_pattern_outside (h : e.pattern &&& ~~~e.mask ≠ 0#32) (dir : Dir) :
    entryMatches e dir a = false := by
  refine entryMatches_eq_false_of_target_outside fun hzero => h ?_
  cases dir with
  | read => exact hzero
  | write => exact (entryTarget_write_and_eq_zero_iff.mp hzero).1

/-- An address that matches both a read and a write says that the pattern has every write-select bit. -/
theorem wsel_and_not_pattern_eq_zero (hread : entryMatches e .read a = true) (hwrite : entryMatches e .write a = true) :
    e.wsel &&& ~~~e.pattern = 0#32 := by
  rw [entryMatches_iff] at hread hwrite
  have htargets : e.pattern = e.pattern ||| e.wsel := hread.symm.trans hwrite
  rw [htargets]
  ext i hi
  simp +contextual

end Match

/-- Settles O12: a target with a bit outside the mask is never met, and the targets of a read and a write are the same
without write-select bits and apart with one that the pattern lacks. -/
theorem matchIsAMaskedCompare : Obligations.MatchIsAMaskedCompare := by
  intro e a
  refine ⟨entryMatches_iff, entryMatches_iff, entryMatches_eq_false_of_pattern_outside, fun hw => ?outside,
    fun hw => ?without, fun hw => ?apart⟩
  case outside =>
    exact entryMatches_eq_false_of_target_outside fun hzero => hw (entryTarget_write_and_eq_zero_iff.mp hzero).2
  case without => simp [entryMatches, entryTarget, hw]
  case apart =>
    rw [Bool.eq_false_iff, ne_eq, Bool.and_eq_true]
    rintro ⟨hread, hwrite⟩
    apply hw
    rw [BitVec.and_assoc, BitVec.and_comm e.mask, ← BitVec.and_assoc, wsel_and_not_pattern_eq_zero hread hwrite,
      BitVec.zero_and]

/-! ### The bytes of a ROM window -/

/-- A common byte has every bit of the one offset `o1`, and off the other offset `o2` no bit of that entry's mask. -/
theorem offset_and_mask_eq_zero_of_common_byte {e2 : Entry} {o1 o2 i1 a2 : PAddr}
    (h : o1 ||| i1 = o2 ||| entryIndex e2 a2) : o1 &&& e2.mask &&& ~~~o2 = 0#32 := by
  ext i hi
  have hbit := congrArg (·[i]) h
  simp only [entryIndex, BitVec.getElem_or, BitVec.getElem_and, BitVec.getElem_not] at hbit
  simp only [BitVec.getElem_and, BitVec.getElem_not, BitVec.getElem_zero]
  grind

/-- Two windows whose offsets each lie within what the other reaches share the byte that has the bits of both offsets:
each is reached by the other offset as the index. -/
theorem common_byte_of_offsets_within {e1 e2 : Entry} {o1 o2 : PAddr} (h1 : o1 &&& e2.mask &&& ~~~o2 = 0#32)
    (h2 : o2 &&& e1.mask &&& ~~~o1 = 0#32) : o1 ||| entryIndex e1 o2 = o2 ||| entryIndex e2 o1 := by
  ext i hi
  have hbit1 := congrArg (·[i]) h1
  have hbit2 := congrArg (·[i]) h2
  simp only [BitVec.getElem_and, BitVec.getElem_not, BitVec.getElem_zero] at hbit1 hbit2
  simp only [entryIndex, BitVec.getElem_or, BitVec.getElem_and, BitVec.getElem_not]
  grind

/-- Settles O11: the test asks of each offset what a common byte needs, and that much gives one. -/
theorem romOverlapIsACommonByte : Obligations.RomOverlapIsACommonByte := by
  intro e1 e2 o1 o2
  rw [romOverlap, Bool.and_eq_true, beq_iff_eq, beq_iff_eq]
  constructor
  · rintro ⟨h1, h2⟩
    exact ⟨o2, o1, common_byte_of_offsets_within h1 h2⟩
  · rintro ⟨a1, a2, h⟩
    exact ⟨offset_and_mask_eq_zero_of_common_byte h, offset_and_mask_eq_zero_of_common_byte h.symm⟩

/-! ### Eligibility -/

/-- The gate that a table gives a mode; a physical entry has none (40 R66). -/
def gateOf (table : ModeEnabled) : Mode → ModeGate
  | .native => table.native
  | .emulation => table.emulation
  | .patgen => table.patgen
  | .dsr => table.dsr
  | .physical => []

/-- A logical entry is eligible exactly where its mode's gate lists the present levels. -/
theorem eligibleLogical_iff {s : State} {e : Entry} :
    eligibleLogical s e = true ↔ s.levels ∈ gateOf s.cfg.modeEnabled e.mode := by
  unfold eligibleLogical
  cases e.mode <;> simp [gateOf, gateOpen]

theorem mem_flagLevels_all (f : FlagLevels) : f ∈ FlagLevels.all := by
  obtain ⟨native, ptgen, dsrSelected⟩ := f
  revert native ptgen dsrSelected
  decide

/-- The decided table asks of each mode one level (40 R66). -/
theorem mem_gateOf_decided (f : FlagLevels) :
    (f ∈ gateOf .decided .native ↔ f.native = true) ∧ (f ∈ gateOf .decided .emulation ↔ f.native = false) ∧
      (f ∈ gateOf .decided .patgen ↔ f.ptgen = true) ∧ (f ∈ gateOf .decided .dsr ↔ f.dsrSelected = true) := by
  simp [gateOf, ModeEnabled.decided, mem_flagLevels_all]

theorem State.levels_native_iff {s : State} : s.levels.native = true ↔ s.cruMode = s.cfg.cruNativeValue := by
  simp [State.levels, State.native]

/-- Settles O13: the gate of the entry's mode decides, and the decided gates ask one level each. -/
theorem eligibilityUnderTheDecidedTable : Obligations.EligibilityUnderTheDecidedTable := by
  intro s e
  have hgate : ∀ {m : Mode}, e.mode = m → (eligibleLogical s e = true ↔ s.levels ∈ gateOf s.cfg.modeEnabled m) :=
    fun hm => hm ▸ eligibleLogical_iff
  refine ⟨hgate, hgate, hgate, hgate, fun hm => ?physical, rfl, fun htable => ?decided⟩
  case physical => simp [eligibleLogical, hm]
  case decided =>
    rw [htable] at hgate
    obtain ⟨hnative, hemulation, hpatgen, hdsr⟩ := mem_gateOf_decided s.levels
    refine ⟨fun hm => ?_, fun hm => ?_, fun hm => (hgate hm).trans hpatgen, fun hm => (hgate hm).trans hdsr⟩
    · rw [hgate hm, hnative, State.levels_native_iff]
    · rw [hgate hm, hemulation, ← Bool.not_eq_true, State.levels_native_iff]

/-! ### The scan -/

theorem acting_eq_nil_iff {hit : Entry → Bool} {L : List Entry} : acting hit L = [] ↔ ∀ e ∈ L, hit e = false := by
  induction L with
  | nil => simp [acting]
  | cons e es ih =>
    cases hhit : hit e with
    | false => rw [acting_cons_of_not_hit hhit, ih, List.forall_mem_cons, and_iff_right hhit]
    | true =>
      cases hstop : e.stop with
      | false => simp [acting_cons_of_not_stop hhit hstop, hhit]
      | true => simp [acting_cons_of_stop hhit hstop, hhit]

theorem eq_none_iff_of_scan_eq_ok {β : Type} {hit : Entry → Bool} {act : Entry → State → Flow β} {L : List Entry}
    {s t : State} {r : Option β} (h : scan hit act L none s = .ok r t) : r = none ↔ acting hit L = [] := by
  constructor
  · rintro rfl
    exact (scan_eq_ok_none_iff.mp h).1
  · intro hnil
    rw [scan_eq_ok_none_iff.mpr ⟨hnil, rfl⟩] at h
    cases h
    rfl

/-- Settles O16: the scan finds nothing exactly where no entry acts, and none acts exactly where none is hit. -/
theorem foundExactlyWhenSomeEntryActs : Obligations.FoundExactlyWhenSomeEntryActs := by
  intro β hit act L s t r h
  rw [← Option.ne_none_iff_isSome, ne_eq, eq_none_iff_of_scan_eq_ok h, acting_eq_nil_iff]
  simp

end Sys2Proof.Machine
end

section
/-!
The ignored bank command, the two control writes with an effect, and the mode lines: the whole next state of each
(42 R96; 43 R100, R101, R104).
-/

namespace Sys2Proof.Machine

/-- The data bit of a control write is the parity of its value (30 R53). -/
theorem dataBit_eq_decide (v : Nat) : dataBit v = decide (v % 2 = 1) := Nat.testBit_zero v

/-- Settles O40: a bank command whose work does nothing is its check and its wait. -/
theorem ignoredBankCommandOnlyWaits : Obligations.IgnoredBankCommandOnlyWaits := by
  intro s la d
  exact congrArg Host.Outcome.next (bankCommand_of_ok rfl)

/-- Settles O43: the write mode of the configuration decides the level that the flag takes. -/
theorem controlDsrWritesTheFlag : Obligations.ControlDsrWritesTheFlag := by
  intro s v
  refine ⟨fun hmode => ?_, fun hmode => ?_⟩
  · simp only [exec, execCtlDsr, hmode, dsrLevel, dataBit_eq_decide]
  · simp only [exec, execCtlDsr, hmode, dsrLevel]

/-- Settles O44: the request goes out exactly where the data bit is 1. -/
theorem controlResetSendsOneRequest : Obligations.ControlResetSendsOneRequest := by
  intro s v
  refine ⟨fun hv => ?_, fun hv => ?_⟩
  · simp [exec, execCtlRst, dataBit_eq_decide, hv, State.emit]
  · simp [exec, execCtlRst, dataBit_eq_decide, hv]

/-- Settles O46: each line's meaning is the record with its own flag replaced. -/
theorem modeLinesWriteTheirFlag : Obligations.ModeLinesWriteTheirFlag := by
  intro s level
  exact ⟨rfl, rfl⟩

end Sys2Proof.Machine
end
